-- ==== Sys2Proof/Word.lean ====
section
/-! DEFINITION. The words of the crust8 CORE: bytes, 16-bit words and register numbers (spec/00_scope.md R6). -/

namespace Sys2Proof

/-- An 8-bit byte: a general register, a RAM cell, a timer (10_state.md R10). -/
abbrev Byte := BitVec 8

/-- A 16-bit word: an instruction, `pc`, `i`, a stack entry (10_state.md R10). -/
abbrev Word := BitVec 16

/-- A general register number, 0 to 15; every one exists (10_state.md R11). -/
abbrev Reg := Fin 16

/-- The flag register `v[0xF]` (10_state.md R12). -/
abbrev flagReg : Reg := 15

end Sys2Proof
end

