-- ==== Sys2Proof/Config.lean ====
section
/-! DEFINITION. What is fixed for the machine, the type of its parameters, and the free values (spec/00_scope.md R5).
The sizes are the source's and are not parameters. FONTSET and VF_ALIAS_ORDER are the fields of `Parameters`, which a
state carries (log 29); END_OF_RUN is an argument of the run definitions in Safety.lean; RND and the host schedule are
inputs of the state (logs 1, 2). -/

namespace Sys2Proof

/-- RAM has 4096 bytes, addresses 0 to 4095 (20_memory.md R40). -/
abbrev Config.ramSize : Nat := 4096

/-- Program images start at 0x200 (20_memory.md R41). -/
abbrev Config.programOrigin : Nat := 0x200

/-- The largest program image, 4096 - 0x200 = 3584 bytes (70_reset_and_hazards.md R245). -/
abbrev Config.maxImage : Nat := 3584

/-- The fontset is 80 bytes, at addresses 0 to 79 (20_memory.md R41). -/
abbrev Config.fontsetSize : Nat := 80

/-- The call stack holds 16 return addresses (10_state.md R15). -/
abbrev Config.stackSize : Nat := 16

/-- The values of the parameter VF_ALIAS_ORDER (00_scope.md R5): which write survives when an instruction writes
both a result to `v[x]` and a flag to `v[0xF]`, and x = 0xF. -/
inductive VfAliasOrder where
  /-- the flag write lands last and the result is lost -/
  | flagLast
  /-- the result write lands last and the flag is lost -/
  | resultLast
  deriving DecidableEq, Repr

/-- A value of the parameter FONTSET (00_scope.md R5): 80 bytes. -/
abbrev Fontset := Vector Byte Config.fontsetSize

/-- The parameters of the machine that are fixed while it runs (00_scope.md R5). Everything that depends on one takes
it as an argument, and the machine itself takes them from its start state, which carries them (log 29). -/
structure Parameters where
  /-- FONTSET: the contents of RAM 0x000 to 0x04F after reset -/
  fontset : Fontset
  /-- VF_ALIAS_ORDER -/
  vfAliasOrder : VfAliasOrder
  deriving DecidableEq, Repr

/-- The parameter RND (00_scope.md R5, 44_random.md R150): the `k`-th byte drawn from the random source. A FREE VALUE:
any of the 256 bytes may arrive at any draw, so the constant has no body and nothing can be proved of its value
(assumption log 2). -/
opaque Config.randomByte : Nat → Byte

/-- The decoder's signal `op` for a word that is no instruction: the spec calls `op` meaningful only with `valid = 1`
and gives no value otherwise (30_encoding.md R70). A FREE VALUE of 6 bits, the model's DESIGN CHOICE (log 30). -/
opaque Config.opOfUnknown : Word → BitVec 6

end Sys2Proof
end

