-- ==== Sys2Proof/Syntax.lean ====
section
/-! DEFINITION. The closed instruction set: one constructor per row of spec/opcode_table.json, in the table's order
(spec/30_encoding.md R66, R69). Operands are those the decoder's variant lists (R61, R63): a register number is a
`Reg`, `byte` is a byte, `addr` and `n` are natural numbers whose range WellFormed checks. -/

namespace Sys2Proof

inductive Instr where
  /-- `00E0` ClearScreen, 45_display.md R156 -/
  | clearScreen
  /-- `00EE` Return, 40_control_flow.md R103 -/
  | ret
  /-- `1nnn` Jump(addr), 40_control_flow.md R101 -/
  | jump (addr : Nat)
  /-- `2nnn` Call(addr), 40_control_flow.md R102 -/
  | call (addr : Nat)
  /-- `3xnn` SkipEqImm(x,byte), 42_immediate_compare.md R132 -/
  | skipEqImm (x : Reg) (byte : Byte)
  /-- `4xnn` SkipNeqImm(x,byte), 42_immediate_compare.md R133 -/
  | skipNeqImm (x : Reg) (byte : Byte)
  /-- `5xy0` SkipEqReg(x,y), 42_immediate_compare.md R134 -/
  | skipEqReg (x y : Reg)
  /-- `6xnn` LoadImm(x,byte), 42_immediate_compare.md R130 -/
  | loadImm (x : Reg) (byte : Byte)
  /-- `7xnn` AddImm(x,byte), 42_immediate_compare.md R131 -/
  | addImm (x : Reg) (byte : Byte)
  /-- `8xy0` Move(x,y), 41_alu.md R110 -/
  | move (x y : Reg)
  /-- `8xy1` Or(x,y), 41_alu.md R111 -/
  | orReg (x y : Reg)
  /-- `8xy2` And(x,y), 41_alu.md R112 -/
  | andReg (x y : Reg)
  /-- `8xy3` Xor(x,y), 41_alu.md R113 -/
  | xorReg (x y : Reg)
  /-- `8xy4` AddReg(x,y), 41_alu.md R114 -/
  | addReg (x y : Reg)
  /-- `8xy5` SubReg(x,y), 41_alu.md R115 -/
  | subReg (x y : Reg)
  /-- `8xy6` Shr(x), 41_alu.md R116 -/
  | shr (x : Reg)
  /-- `8xy7` SubnReg(x,y), 41_alu.md R117 -/
  | subnReg (x y : Reg)
  /-- `8xyE` Shl(x), 41_alu.md R118 -/
  | shl (x : Reg)
  /-- `9xy0` SkipNeqReg(x,y), 42_immediate_compare.md R135 -/
  | skipNeqReg (x y : Reg)
  /-- `Annn` SetIndex(addr), 43_index.md R140 -/
  | setIndex (addr : Nat)
  /-- `Bnnn` JumpPlusV0(addr), 40_control_flow.md R104 -/
  | jumpPlusV0 (addr : Nat)
  /-- `Cxnn` Random(x,byte), 44_random.md R150 -/
  | random (x : Reg) (byte : Byte)
  /-- `Dxyn` Draw(x,y,n), 45_display.md R155 -/
  | draw (x y : Reg) (n : Nat)
  /-- `Ex9E` SkipIfKeyDown(x), 46_keypad.md R165 -/
  | skipIfKeyDown (x : Reg)
  /-- `ExA1` SkipIfKeyUp(x), 46_keypad.md R166 -/
  | skipIfKeyUp (x : Reg)
  /-- `Fx07` ReadDelay(x), 47_timers.md R175 -/
  | readDelay (x : Reg)
  /-- `Fx0A` WaitKey(x), 46_keypad.md R167 -/
  | waitKey (x : Reg)
  /-- `Fx15` WriteDelay(x), 47_timers.md R176 -/
  | writeDelay (x : Reg)
  /-- `Fx18` WriteSound(x), 47_timers.md R177 -/
  | writeSound (x : Reg)
  /-- `Fx1E` AddIndex(x), 43_index.md R141 -/
  | addIndex (x : Reg)
  /-- `Fx29` IndexToGlyph(x), 43_index.md R142 -/
  | indexToGlyph (x : Reg)
  /-- `Fx33` StoreBCD(x), 48_memory_block.md R180 -/
  | storeBCD (x : Reg)
  /-- `Fx55` StoreRegs(x), 48_memory_block.md R181 -/
  | storeRegs (x : Reg)
  /-- `Fx65` LoadRegs(x), 48_memory_block.md R182 -/
  | loadRegs (x : Reg)
  deriving DecidableEq, Repr

end Sys2Proof
end

