-- ==== Sys2Proof/WellFormed.lean ====
section
/-! DEFINITION. Which instructions an encoding can express (spec/30_encoding.md R63): `addr` is a 12-bit value, 0 to
4095, and `n` is a count 0 to 15. Register numbers and immediate bytes are in range by their types. -/

namespace Sys2Proof

/-- `addr` is a 12-bit value (30_encoding.md R61, R63). -/
def addrFits (addr : Nat) : Bool := decide (addr < 4096)

/-- `n` is a count 0 to 15 (30_encoding.md R61, R63). -/
def heightFits (n : Nat) : Bool := decide (n < 16)

/-- The instruction is one that some 16-bit word stands for. -/
def Instr.wellFormed : Instr → Bool
  | .jump addr | .call addr | .setIndex addr | .jumpPlusV0 addr => addrFits addr
  | .draw _ _ n => heightFits n
  | .clearScreen | .ret
  | .skipEqImm _ _ | .skipNeqImm _ _ | .skipEqReg _ _ | .skipNeqReg _ _
  | .loadImm _ _ | .addImm _ _ | .random _ _
  | .move _ _ | .orReg _ _ | .andReg _ _ | .xorReg _ _ | .addReg _ _ | .subReg _ _ | .subnReg _ _
  | .shr _ | .shl _
  | .skipIfKeyDown _ | .skipIfKeyUp _ | .waitKey _
  | .readDelay _ | .writeDelay _ | .writeSound _
  | .addIndex _ | .indexToGlyph _
  | .storeBCD _ | .storeRegs _ | .loadRegs _ => true

end Sys2Proof
end

