-- ==== Sys2Proof/Decode.lean ====
section
/-! DEFINITION. The decoder, its encoder, the opcode map and the assembler names (spec/30_encoding.md).
The decoder reads the word's fields and nothing else (R64); it is written on the nibbles (R60, R61). The opcode map
`opcodeMap` is R66 transcribed a second time, as match and mask, so that the two can be held against each other. -/

namespace Sys2Proof

/-! ### The fields of a word (R60, R61) -/

/-- `n1 = w[15:12]`, the major opcode. -/
def fieldN1 (w : Word) : BitVec 4 := w.extractLsb' 12 4

/-- `n4 = w[3:0]`, the minor opcode of groups 5, 8 and 9. -/
def fieldN4 (w : Word) : BitVec 4 := w.extractLsb' 0 4

/-- `x = n2 = w[11:8]`. -/
def fieldX (w : Word) : Reg := (w.extractLsb' 8 4).toFin

/-- `y = n3 = w[7:4]`. -/
def fieldY (w : Word) : Reg := (w.extractLsb' 4 4).toFin

/-- `n = n4`, as a count. -/
def fieldN (w : Word) : Nat := (fieldN4 w).toNat

/-- `byte = w[7:0]`. -/
def fieldByte (w : Word) : Byte := w.extractLsb' 0 8

/-- `addr = w[11:0]`, as a natural number. -/
def fieldAddr (w : Word) : Nat := (w.extractLsb' 0 12).toNat

/-! ### The two bytes of a word (R60; 20_memory.md R43) -/

/-- The byte at the lower address: bits 15 to 8. -/
def highByte (w : Word) : Byte := w.extractLsb' 8 8

/-- The byte at the higher address: bits 7 to 0. -/
def lowByte (w : Word) : Byte := w.extractLsb' 0 8

/-- The big-endian word of two bytes (20_memory.md R43). -/
def wordOfBytes (hi lo : Byte) : Word := hi ++ lo

/-! ### The decoder -/

/-- The decoder's output (R64, R70): one of the 34 variants, or Unknown carrying the raw word. -/
inductive Decoded where
  | instr (i : Instr)
  | unknown (raw : Word)
  deriving DecidableEq, Repr

/-- Major opcode 8, by the minor opcode n4 (R66 rows 9 to 17). -/
def decodeGroup8 (w : Word) : Decoded :=
  let x := fieldX w
  let y := fieldY w
  match fieldN4 w with
  | 0x0#4 => .instr (.move x y)
  | 0x1#4 => .instr (.orReg x y)
  | 0x2#4 => .instr (.andReg x y)
  | 0x3#4 => .instr (.xorReg x y)
  | 0x4#4 => .instr (.addReg x y)
  | 0x5#4 => .instr (.subReg x y)
  | 0x6#4 => .instr (.shr x)
  | 0x7#4 => .instr (.subnReg x y)
  | 0xE#4 => .instr (.shl x)
  | _ => .unknown w

/-- Major opcode E, by the low byte (R66 rows 23 and 24). -/
def decodeGroupE (w : Word) : Decoded :=
  match fieldByte w with
  | 0x9E#8 => .instr (.skipIfKeyDown (fieldX w))
  | 0xA1#8 => .instr (.skipIfKeyUp (fieldX w))
  | _ => .unknown w

/-- Major opcode F, by the low byte (R66 rows 25 to 33). -/
def decodeGroupF (w : Word) : Decoded :=
  let x := fieldX w
  match fieldByte w with
  | 0x07#8 => .instr (.readDelay x)
  | 0x0A#8 => .instr (.waitKey x)
  | 0x15#8 => .instr (.writeDelay x)
  | 0x18#8 => .instr (.writeSound x)
  | 0x1E#8 => .instr (.addIndex x)
  | 0x29#8 => .instr (.indexToGlyph x)
  | 0x33#8 => .instr (.storeBCD x)
  | 0x55#8 => .instr (.storeRegs x)
  | 0x65#8 => .instr (.loadRegs x)
  | _ => .unknown w

/-- The decoder (R64, R66): total on every 16-bit word; a word of no row is Unknown (R67). -/
def decode (w : Word) : Decoded :=
  let x := fieldX w
  let y := fieldY w
  match fieldN1 w with
  | 0x0#4 => if w = 0x00E0#16 then .instr .clearScreen else if w = 0x00EE#16 then .instr .ret else .unknown w
  | 0x1#4 => .instr (.jump (fieldAddr w))
  | 0x2#4 => .instr (.call (fieldAddr w))
  | 0x3#4 => .instr (.skipEqImm x (fieldByte w))
  | 0x4#4 => .instr (.skipNeqImm x (fieldByte w))
  | 0x5#4 => if fieldN4 w = 0x0#4 then .instr (.skipEqReg x y) else .unknown w
  | 0x6#4 => .instr (.loadImm x (fieldByte w))
  | 0x7#4 => .instr (.addImm x (fieldByte w))
  | 0x8#4 => decodeGroup8 w
  | 0x9#4 => if fieldN4 w = 0x0#4 then .instr (.skipNeqReg x y) else .unknown w
  | 0xA#4 => .instr (.setIndex (fieldAddr w))
  | 0xB#4 => .instr (.jumpPlusV0 (fieldAddr w))
  | 0xC#4 => .instr (.random x (fieldByte w))
  | 0xD#4 => .instr (.draw x y (fieldN w))
  | 0xE#4 => decodeGroupE w
  | _ => decodeGroupF w

/-- The outcome of decoding bytes as they lie in memory. -/
inductive DecodedBytes where
  /-- an instruction, and the bytes after it -/
  | instr (i : Instr) (rest : List Byte)
  /-- two bytes that are no instruction: the raw word (R67), and the bytes after it -/
  | unknown (raw : Word) (rest : List Byte)
  /-- fewer than the two bytes every instruction has (R60) -/
  | tooShort
  deriving DecidableEq, Repr

/-- Decoding on bytes: total, the first byte is the high one (20_memory.md R43, 30_encoding.md R73). -/
def decodeBytes : List Byte → DecodedBytes
  | hi :: lo :: rest =>
    match decode (wordOfBytes hi lo) with
    | .instr i => .instr i rest
    | .unknown raw => .unknown raw rest
  | _ => .tooShort

/-! ### The encoder -/

/-- A register number as a nibble. -/
def regNibble (x : Reg) : BitVec 4 := BitVec.ofNat 4 x.val

/-- Format A (R62): `n1`, then a 12-bit address. -/
def wordA (n1 : BitVec 4) (addr : Nat) : Word := n1 ++ BitVec.ofNat 12 addr

/-- Format XB (R62): `n1`, `x`, then a byte. -/
def wordXB (n1 : BitVec 4) (x : Reg) (byte : Byte) : Word := n1 ++ regNibble x ++ byte

/-- Formats XY and XYN (R62): `n1`, `x`, `y`, then a nibble. -/
def wordXY (n1 : BitVec 4) (x : Reg) (y n4 : BitVec 4) : Word := n1 ++ regNibble x ++ y ++ n4

/-- The word of an instruction, from the patterns of R66. The ignored `y` of Shr and Shl is written as 0 (R71). -/
def encode : Instr → Word
  | .clearScreen => 0x00E0#16
  | .ret => 0x00EE#16
  | .jump addr => wordA 0x1#4 addr
  | .call addr => wordA 0x2#4 addr
  | .skipEqImm x byte => wordXB 0x3#4 x byte
  | .skipNeqImm x byte => wordXB 0x4#4 x byte
  | .skipEqReg x y => wordXY 0x5#4 x (regNibble y) 0x0#4
  | .loadImm x byte => wordXB 0x6#4 x byte
  | .addImm x byte => wordXB 0x7#4 x byte
  | .move x y => wordXY 0x8#4 x (regNibble y) 0x0#4
  | .orReg x y => wordXY 0x8#4 x (regNibble y) 0x1#4
  | .andReg x y => wordXY 0x8#4 x (regNibble y) 0x2#4
  | .xorReg x y => wordXY 0x8#4 x (regNibble y) 0x3#4
  | .addReg x y => wordXY 0x8#4 x (regNibble y) 0x4#4
  | .subReg x y => wordXY 0x8#4 x (regNibble y) 0x5#4
  | .shr x => wordXY 0x8#4 x 0x0#4 0x6#4
  | .subnReg x y => wordXY 0x8#4 x (regNibble y) 0x7#4
  | .shl x => wordXY 0x8#4 x 0x0#4 0xE#4
  | .skipNeqReg x y => wordXY 0x9#4 x (regNibble y) 0x0#4
  | .setIndex addr => wordA 0xA#4 addr
  | .jumpPlusV0 addr => wordA 0xB#4 addr
  | .random x byte => wordXB 0xC#4 x byte
  | .draw x y n => wordXY 0xD#4 x (regNibble y) (BitVec.ofNat 4 n)
  | .skipIfKeyDown x => wordXB 0xE#4 x 0x9E#8
  | .skipIfKeyUp x => wordXB 0xE#4 x 0xA1#8
  | .readDelay x => wordXB 0xF#4 x 0x07#8
  | .waitKey x => wordXB 0xF#4 x 0x0A#8
  | .writeDelay x => wordXB 0xF#4 x 0x15#8
  | .writeSound x => wordXB 0xF#4 x 0x18#8
  | .addIndex x => wordXB 0xF#4 x 0x1E#8
  | .indexToGlyph x => wordXB 0xF#4 x 0x29#8
  | .storeBCD x => wordXB 0xF#4 x 0x33#8
  | .storeRegs x => wordXB 0xF#4 x 0x55#8
  | .loadRegs x => wordXB 0xF#4 x 0x65#8

/-- The two bytes of an instruction as they lie in memory, high byte first (20_memory.md R43, 30_encoding.md R73). -/
def encodeBytes (i : Instr) : List Byte := [highByte (encode i), lowByte (encode i)]

/-! ### The opcode map as match and mask (R62, R66) -/

/-- The six formats of R62. -/
inductive Format where
  | fix | a | xb | xy | xyn | x
  deriving DecidableEq, Repr

/-- One row of R66: the row's `op` number, its name, its format, its match and its mask. -/
structure OpcodeRow where
  op : Nat
  mnemonic : String
  format : Format
  matchBits : Word
  mask : Word
  deriving DecidableEq, Repr

/-- R66, rows 0 to 8. -/
def opcodeRowsLow : List OpcodeRow :=
  [⟨0, "ClearScreen", .fix, 0x00E0#16, 0xFFFF#16⟩,
   ⟨1, "Return", .fix, 0x00EE#16, 0xFFFF#16⟩,
   ⟨2, "Jump", .a, 0x1000#16, 0xF000#16⟩,
   ⟨3, "Call", .a, 0x2000#16, 0xF000#16⟩,
   ⟨4, "SkipEqImm", .xb, 0x3000#16, 0xF000#16⟩,
   ⟨5, "SkipNeqImm", .xb, 0x4000#16, 0xF000#16⟩,
   ⟨6, "SkipEqReg", .xy, 0x5000#16, 0xF00F#16⟩,
   ⟨7, "LoadImm", .xb, 0x6000#16, 0xF000#16⟩,
   ⟨8, "AddImm", .xb, 0x7000#16, 0xF000#16⟩]

/-- R66, rows 9 to 17 (group 8). -/
def opcodeRowsAlu : List OpcodeRow :=
  [⟨9, "Move", .xy, 0x8000#16, 0xF00F#16⟩,
   ⟨10, "Or", .xy, 0x8001#16, 0xF00F#16⟩,
   ⟨11, "And", .xy, 0x8002#16, 0xF00F#16⟩,
   ⟨12, "Xor", .xy, 0x8003#16, 0xF00F#16⟩,
   ⟨13, "AddReg", .xy, 0x8004#16, 0xF00F#16⟩,
   ⟨14, "SubReg", .xy, 0x8005#16, 0xF00F#16⟩,
   ⟨15, "Shr", .xy, 0x8006#16, 0xF00F#16⟩,
   ⟨16, "SubnReg", .xy, 0x8007#16, 0xF00F#16⟩,
   ⟨17, "Shl", .xy, 0x800E#16, 0xF00F#16⟩]

/-- R66, rows 18 to 24. -/
def opcodeRowsMid : List OpcodeRow :=
  [⟨18, "SkipNeqReg", .xy, 0x9000#16, 0xF00F#16⟩,
   ⟨19, "SetIndex", .a, 0xA000#16, 0xF000#16⟩,
   ⟨20, "JumpPlusV0", .a, 0xB000#16, 0xF000#16⟩,
   ⟨21, "Random", .xb, 0xC000#16, 0xF000#16⟩,
   ⟨22, "Draw", .xyn, 0xD000#16, 0xF000#16⟩,
   ⟨23, "SkipIfKeyDown", .x, 0xE09E#16, 0xF0FF#16⟩,
   ⟨24, "SkipIfKeyUp", .x, 0xE0A1#16, 0xF0FF#16⟩]

/-- R66, rows 25 to 33 (group F). -/
def opcodeRowsF : List OpcodeRow :=
  [⟨25, "ReadDelay", .x, 0xF007#16, 0xF0FF#16⟩,
   ⟨26, "WaitKey", .x, 0xF00A#16, 0xF0FF#16⟩,
   ⟨27, "WriteDelay", .x, 0xF015#16, 0xF0FF#16⟩,
   ⟨28, "WriteSound", .x, 0xF018#16, 0xF0FF#16⟩,
   ⟨29, "AddIndex", .x, 0xF01E#16, 0xF0FF#16⟩,
   ⟨30, "IndexToGlyph", .x, 0xF029#16, 0xF0FF#16⟩,
   ⟨31, "StoreBCD", .x, 0xF033#16, 0xF0FF#16⟩,
   ⟨32, "StoreRegs", .x, 0xF055#16, 0xF0FF#16⟩,
   ⟨33, "LoadRegs", .x, 0xF065#16, 0xF0FF#16⟩]

/-- The opcode map of R66, in its order. -/
def opcodeMap : List OpcodeRow := opcodeRowsLow ++ opcodeRowsAlu ++ opcodeRowsMid ++ opcodeRowsF

/-- A word matches a row when its fixed nibbles equal the row's (R65, R66: `w & mask = match`). -/
def OpcodeRow.matches (r : OpcodeRow) (w : Word) : Bool := decide (w &&& r.mask = r.matchBits)

/-- The `op` number of an instruction (R66, R70). -/
def Instr.op : Instr → Nat
  | .clearScreen => 0
  | .ret => 1
  | .jump _ => 2
  | .call _ => 3
  | .skipEqImm _ _ => 4
  | .skipNeqImm _ _ => 5
  | .skipEqReg _ _ => 6
  | .loadImm _ _ => 7
  | .addImm _ _ => 8
  | .move _ _ => 9
  | .orReg _ _ => 10
  | .andReg _ _ => 11
  | .xorReg _ _ => 12
  | .addReg _ _ => 13
  | .subReg _ _ => 14
  | .shr _ => 15
  | .subnReg _ _ => 16
  | .shl _ => 17
  | .skipNeqReg _ _ => 18
  | .setIndex _ => 19
  | .jumpPlusV0 _ => 20
  | .random _ _ => 21
  | .draw _ _ _ => 22
  | .skipIfKeyDown _ => 23
  | .skipIfKeyUp _ => 24
  | .readDelay _ => 25
  | .waitKey _ => 26
  | .writeDelay _ => 27
  | .writeSound _ => 28
  | .addIndex _ => 29
  | .indexToGlyph _ => 30
  | .storeBCD _ => 31
  | .storeRegs _ => 32
  | .loadRegs _ => 33

/-! ### The decoder's output signals (R70) -/

/-- The signals of R70: `valid`, `op` (meaningful when `valid`), and the five fields wired straight from the word. -/
structure DecoderSignals where
  valid : Bool
  op : Nat
  x : Reg
  y : Reg
  n : Nat
  byte : Byte
  addr : Nat
  deriving DecidableEq, Repr

/-- The decoder as a block of wires (R70). The spec leaves `op` open for an Unknown word (`valid` false): there it is the
free value `Config.opOfUnknown`, a choice of this model (DESIGN CHOICE, log 30). -/
def decoderSignals (w : Word) : DecoderSignals :=
  { valid := match decode w with
      | .instr _ => true
      | .unknown _ => false
    op := match decode w with
      | .instr i => i.op
      | .unknown raw => (Config.opOfUnknown raw).toNat
    x := fieldX w
    y := fieldY w
    n := fieldN w
    byte := fieldByte w
    addr := fieldAddr w }

/-! ### The textual form (R71) -/

/-- The name of an instruction: one of the 34 names of R66. -/
def Instr.mnemonic (i : Instr) : String := (opcodeMap[i.op]?.map OpcodeRow.mnemonic).getD ""

/-- The operands of an instruction, in the order of R66, as numbers. -/
def Instr.operands : Instr → List Nat
  | .clearScreen | .ret => []
  | .jump addr | .call addr | .setIndex addr | .jumpPlusV0 addr => [addr]
  | .skipEqImm x byte | .skipNeqImm x byte | .loadImm x byte | .addImm x byte | .random x byte => [x.val, byte.toNat]
  | .skipEqReg x y | .skipNeqReg x y | .move x y | .orReg x y | .andReg x y | .xorReg x y
  | .addReg x y | .subReg x y | .subnReg x y => [x.val, y.val]
  | .draw x y n => [x.val, y.val, n]
  | .shr x | .shl x | .skipIfKeyDown x | .skipIfKeyUp x | .readDelay x | .waitKey x | .writeDelay x | .writeSound x
  | .addIndex x | .indexToGlyph x | .storeBCD x | .storeRegs x | .loadRegs x => [x.val]

/-- `Name(operands)`, decimal numbers; a variant without operands is its bare name (R71). -/
def Instr.text (i : Instr) : String :=
  match i.operands with
  | [] => i.mnemonic
  | a :: rest => i.mnemonic ++ "(" ++ rest.foldl (fun t k => t ++ ", " ++ toString k) (toString a) ++ ")"

/-! ### The decoder on a word of the opcode table -/

/-- The instruction the decoder reads from an instruction whose bits are `w`, bit 0 the least significant bit of the
16-bit word; bits at and above `nbits` are 0. The word is laid out as the hardware stores it, high byte first
(20_memory.md R43). -/
def decodeTableWord (nbits w : Nat) : Option Instr :=
  let word : Word := BitVec.ofNat 16 (w % 2 ^ nbits)
  match decodeBytes [highByte word, lowByte word] with
  | .instr i _ => some i
  | .unknown _ _ => none
  | .tooShort => none

end Sys2Proof
end

