-- ==== Sys2Proof/Machine/Params.lean ====
section
/-! DEFINITION. The values this hardware gives the parameters FONTSET and VF_ALIAS_ORDER (spec/00_scope.md R5). Only
`State.reset` takes them from here; everything else takes the parameters as arguments (log 29). -/

namespace Sys2Proof.Machine

/-- The glyphs of the hexadecimal digits 0 to 7, five rows each (70_reset_and_hazards.md R243; PRESUMED, log 4). -/
def glyphsLow : List (List Byte) :=
  [[0xF0, 0x90, 0x90, 0x90, 0xF0],
   [0x20, 0x60, 0x20, 0x20, 0x70],
   [0xF0, 0x10, 0xF0, 0x80, 0xF0],
   [0xF0, 0x10, 0xF0, 0x10, 0xF0],
   [0x90, 0x90, 0xF0, 0x10, 0x10],
   [0xF0, 0x80, 0xF0, 0x10, 0xF0],
   [0xF0, 0x80, 0xF0, 0x90, 0xF0],
   [0xF0, 0x10, 0x20, 0x40, 0x40]]

/-- The glyphs of the hexadecimal digits 8 to F (70_reset_and_hazards.md R243; PRESUMED, log 4). -/
def glyphsHigh : List (List Byte) :=
  [[0xF0, 0x90, 0xF0, 0x90, 0xF0],
   [0xF0, 0x90, 0xF0, 0x10, 0xF0],
   [0xF0, 0x90, 0xF0, 0x90, 0x90],
   [0xE0, 0x90, 0xE0, 0x90, 0xE0],
   [0xF0, 0x80, 0x80, 0x80, 0xF0],
   [0xE0, 0x90, 0x90, 0x90, 0xE0],
   [0xF0, 0x80, 0xF0, 0x80, 0xF0],
   [0xF0, 0x80, 0xF0, 0x80, 0x80]]

/-- The default FONTSET: the 80 bytes of RAM 0x000 to 0x04F after reset, glyph `d` at `5 * d` (20_memory.md R41,
70_reset_and_hazards.md R243). The spec's default, which the source does not give: PRESUMED (log 4). -/
def defaultFontset : Fontset := ⟨((glyphsLow ++ glyphsHigh).flatten).toArray, by decide⟩

/-- The parameters of this hardware: the spec's default FONTSET (log 4), and VF_ALIAS_ORDER with the flag write last
(00_scope.md R5, 92_eei_decisions.md D4; log 5). -/
def crust8Parameters : Parameters := { fontset := defaultFontset, vfAliasOrder := .flagLast }

end Sys2Proof.Machine
end

