-- ==== Sys2Proof/Machine/State.lean ====
section
/-! DEFINITION. The state of the machine, its faults, its refusals and the state after reset
(spec/10_state.md R10 to R23; 60_exceptions.md R200; 70_reset_and_hazards.md R242).
State is plain data. Its first ten fields are the spec's, "exactly these fields and no others" (R10); the last four
are the parameters and the inputs of the environment, which the fixed form of `exec` and `step` leaves no other place
for (assumption logs 1, 2, 29). -/

namespace Sys2Proof.Machine

/-- RAM as a list of (address, byte) pairs in one canonical form (Machine/Memory.lean). -/
abbrev Memory := List Host.Cell

/-- The framebuffer, 32 rows of 64 columns; `true` is lit (10_state.md R18). -/
abbrev Framebuffer := Vector (Vector Bool 64) 32

/-- The operations through which the host reaches the CORE, each atomic, one at a time (60_exceptions.md R227,
20_memory.md R51). -/
inductive HostOp where
  /-- `Step`: one fetch-decode-execute cycle (10_state.md R30) -/
  | step
  /-- `Tick`: both timers count down (60_exceptions.md R220) -/
  | tick
  /-- `SetKey(index, pressed)` (60_exceptions.md R223) -/
  | setKey (index : Nat) (pressed : Bool)
  /-- `Load(bytes)`: install a program image at 0x200 (70_reset_and_hazards.md R245) -/
  | load (image : List Byte)
  /-- `Reset` (70_reset_and_hazards.md R240) -/
  | reset
  /-- `Framebuffer()`: a read-only snapshot (60_exceptions.md R224) -/
  | readFramebuffer
  /-- the read-only observation of both timers (60_exceptions.md R225) -/
  | readTimers
  deriving DecidableEq, Repr

/-- The faults of 60_exceptions.md R200. A fault is the result of the operation that reports it; the operation has no
effect on the state (R205) and nothing is latched (R206). Each of them is SAFE: the spec names the fault, and a run
that reports one has gone wrong. -/
inductive Fault where
  /-- The fetched word matches no row of the opcode map; carries the raw word. Raised by `Step`, decode stage (R201).
  Safe: the spec's own fault. -/
  | unknownOpcode (raw : Word)
  /-- Call with 16 return addresses held. Raised by Call only (R202). Safe: the spec's own fault. -/
  | stackOverflow
  /-- Return with no return address held. Raised by Return only (R202). Safe: the spec's own fault. -/
  | stackUnderflow
  /-- An access at an address of 4096 or more; carries the lowest offending address, unreduced. Raised by the fetch,
  Draw, StoreBCD, StoreRegs and LoadRegs (R203, R204). Safe: the spec's own fault. -/
  | memoryFault (address : Nat)
  /-- A program image of more than 3584 bytes. Raised by `Load` only, never by an instruction
  (70_reset_and_hazards.md R245). Safe: the spec's own fault. -/
  | oversizeImage
  deriving DecidableEq, Repr

/-- The refusals. Every instruction of the opcode map has a meaning, and no meaning refuses. -/
inductive Refusal where
  /-- An instruction that has no meaning yet, by its mnemonic. Raised by `exec`'s arms only; no arm raises it in this
  model. Safe: the run stops. -/
  | notModelled (mnemonic : String)
  deriving DecidableEq, Repr

/-- The whole architectural state (10_state.md R10), and after it the environment's inputs and the parameters. -/
structure State where
  /-- program counter (R23) -/
  pc : Word
  /-- RAM, 4096 bytes (R19, 20_memory.md R40) -/
  mem : Memory
  /-- the general registers `v[0]` to `v[15]` (R11) -/
  v : Vector Byte 16
  /-- the index register, never masked (R14) -/
  i : Word
  /-- call-stack depth, 0 to 16 (R15) -/
  sp : Fin 17
  /-- the call stack; entries at and above `sp` keep old values (R15, R21) -/
  stack : Vector Word 16
  /-- pressed-state of each key (R17) -/
  keys : Vector Bool 16
  /-- delay timer (R16) -/
  delayTimer : Byte
  /-- sound timer (R16) -/
  soundTimer : Byte
  /-- framebuffer, `fb[y][x]` (R18) -/
  fb : Framebuffer
  /-- THE MODEL'S OWN: bytes the injected random source will deliver, oldest first (44_random.md R150; log 2) -/
  rnd : List Byte
  /-- THE MODEL'S OWN: how many random bytes have been drawn; indexes the free value `Config.randomByte` (log 2) -/
  draws : Nat
  /-- THE MODEL'S OWN: the host's next operations; when it is empty the host asks for a `Step` (log 1) -/
  schedule : List HostOp
  /-- THE MODEL'S OWN: the parameters FONTSET and VF_ALIAS_ORDER, an argument of the whole machine that no operation
  changes (00_scope.md R5; log 29) -/
  params : Parameters
  deriving DecidableEq, Repr

/-- The result of one operation: the next state, a fault, or a refusal. -/
abbrev Result := Host.Outcome State Fault Refusal

/-- The state after reset of the machine with parameters `p`, complete (70_reset_and_hazards.md R242). RAM lists
nothing: an unlisted address reads as its reset contents (Machine/Memory.lean). The last four fields are the model's own
(logs 3, 29). -/
def State.resetWith (p : Parameters) : State :=
  { pc := 0x0200#16
    mem := []
    v := Vector.replicate 16 0x00#8
    i := 0x0000#16
    sp := 0
    stack := Vector.replicate 16 0x0000#16
    keys := Vector.replicate 16 false
    delayTimer := 0x00#8
    soundTimer := 0x00#8
    fb := Vector.replicate 32 (Vector.replicate 64 false)
    rnd := []
    draws := 0
    schedule := []
    params := p }

/-- The state after reset of this hardware. -/
def State.reset : State := State.resetWith crust8Parameters

end Sys2Proof.Machine
end

