-- ==== Sys2Proof/Machine/Memory.lean ====
section
/-! DEFINITION. RAM as plain data in one canonical form (spec/20_memory.md R40, R41). What depends on the parameter
FONTSET takes it as its first argument. -/

namespace Sys2Proof.Machine

/-- What an address that RAM does not list reads as: its reset contents, the fontset below 0x050 and 0x00 above
(70_reset_and_hazards.md R242; log 18). -/
def Memory.unlisted (font : Fontset) (a : Nat) : Byte := font.getD a 0x00#8

/-- The listed byte at an address. -/
def Memory.lookup : Memory → Nat → Option Byte
  | [], _ => none
  | (a', b) :: m, a => if a = a' then some b else Memory.lookup m a

/-- The byte at an address. -/
def Memory.get (font : Fontset) (m : Memory) (a : Nat) : Byte := (Memory.lookup m a).getD (Memory.unlisted font a)

/-- List a byte at an address, keeping the addresses rising. -/
def Memory.insert : Memory → Nat → Byte → Memory
  | [], a, b => [(a, b)]
  | (a', b') :: m, a, b =>
    if a < a' then (a, b) :: (a', b') :: m
    else if a = a' then (a, b) :: m
    else (a', b') :: Memory.insert m a b

/-- List nothing at an address. -/
def Memory.erase : Memory → Nat → Memory
  | [], _ => []
  | (a', b') :: m, a => if a = a' then Memory.erase m a else (a', b') :: Memory.erase m a

/-- Write one byte. Writing what an unlisted address reads as removes the entry, so that equal memories are equal
lists. -/
def Memory.set (font : Fontset) (m : Memory) (a : Nat) (b : Byte) : Memory :=
  if b = Memory.unlisted font a then Memory.erase m a else Memory.insert m a b

/-- The canonical form: addresses strictly rising, every one of them in RAM, and no entry equal to what its address
reads as unlisted. -/
abbrev Memory.wf (font : Fontset) (m : Memory) : Prop :=
  m.Pairwise (fun c d => c.1 < d.1) ∧ ∀ c ∈ m, c.1 < Config.ramSize ∧ c.2 ≠ Memory.unlisted font c.1

/-- `n` bytes from an address upward. -/
def Memory.read (font : Fontset) (m : Memory) (a : Nat) : Nat → List Byte
  | 0 => []
  | n + 1 => Memory.get font m a :: Memory.read font m (a + 1) n

/-- Bytes written from an address upward, the first at the lowest address (20_memory.md R44). -/
def Memory.write (font : Fontset) (m : Memory) (a : Nat) : List Byte → Memory
  | [] => m
  | b :: bs => Memory.write font (Memory.set font m a b) (a + 1) bs

end Sys2Proof.Machine
end

