-- ==== Sys2Proof/Machine/Ops.lean ====
section
/-! DEFINITION. The named operations over the state that the meanings share: completing and faulting, the program
counter, the registers, the stack, RAM through `i`, the fetch, the framebuffer and the random port. -/

namespace Sys2Proof.Machine

/-! ### Completing and faulting -/

/-- The operation completed (60_exceptions.md R200, Ok). -/
def complete (s : State) : Result := .next s

/-- TAKING A FAULT, the one shared operation (60_exceptions.md R205, R206): the fault is the result of the operation,
and no part of the state changes, `pc` included; nothing is saved, no handler is entered, so there is no return from
it either. -/
def raise (f : Fault) : Result := .fault f

/-- The label of a fault (60_exceptions.md R200); 0 is Ok. -/
def Fault.code : Fault → Nat
  | .unknownOpcode _ => 1
  | .stackOverflow => 2
  | .stackUnderflow => 3
  | .memoryFault _ => 4
  | .oversizeImage => 5

/-! ### The program counter (10_state.md R23, R30) -/

/-- `npc = pc0 + 2`, the address after the instruction (10_state.md R30). -/
def State.npc (s : State) : Word := s.pc + 2#16

/-- `pc <- t`. -/
def State.setPc (s : State) (t : Word) : State := { s with pc := t }

/-- `pc <- npc`. -/
def State.advance (s : State) : State := s.setPc s.npc

/-- A skip: `pc <- npc + 2` when the condition holds, else `pc <- npc` (42_immediate_compare.md R136). -/
def State.skipIf (s : State) (c : Bool) : State := if c then s.setPc (s.npc + 2#16) else s.advance

/-! ### The general registers and the index register (10_state.md R11, R14) -/

/-- `v[k]`. -/
def State.reg (s : State) (k : Reg) : Byte := s.v[k.val]

/-- `v[k] <- b`. -/
def State.setReg (s : State) (k : Reg) (b : Byte) : State := { s with v := s.v.set k.val b k.isLt }

/-- `v[0]` to `v[x]`, lowest first (48_memory_block.md R181). -/
def State.regsUpTo (s : State) (x : Reg) : List Byte := s.v.toList.take (x.val + 1)

/-- `v[k] <- bs[k]` for every k that `bs` has, the others unchanged (48_memory_block.md R182). -/
def State.setRegsFrom (s : State) (bs : List Byte) : State :=
  { s with v := Vector.ofFn fun k : Reg => bs.getD k.val s.v[k.val] }

/-- `i <- a`; no write masks it to 12 bits (10_state.md R14). -/
def State.setIndex (s : State) (a : Word) : State := { s with i := a }

/-! ### The stack (10_state.md R15) -/

/-- Push a return address: `stack[sp] <- a`, then `sp <- sp + 1`; `none` when 16 are held. -/
def State.push (s : State) (a : Word) : Option State :=
  if h : s.sp.val < 16 then
    some { s with stack := s.stack.set s.sp.val a h, sp := ⟨s.sp.val + 1, by omega⟩ }
  else none

/-- Pop a return address: `sp <- sp - 1`, then read `stack[sp]`; the slot keeps its value; `none` when none is held. -/
def State.pop (s : State) : Option (Word × State) :=
  if h : 0 < s.sp.val then
    some (s.stack[s.sp.val - 1], { s with sp := ⟨s.sp.val - 1, by omega⟩ })
  else none

/-! ### RAM (20_memory.md R42, R46) -/

/-- The byte of RAM at an address. -/
def State.byteAt (s : State) (a : Nat) : Byte := Memory.get s.params.fontset s.mem a

/-- The lowest of the `n` addresses from `a` upward that is outside RAM, if one is: the addresses are visited lowest
first and are never reduced (20_memory.md R42, 60_exceptions.md R204). -/
def firstOutside (a : Nat) : Nat → Option Nat
  | 0 => none
  | n + 1 => if a < Config.ramSize then firstOutside (a + 1) n else some a

/-- An access to the `n` bytes from `a` upward: MemoryFault at the lowest address outside RAM, and otherwise what the
access does. All checks come before the first effect (60_exceptions.md R205). -/
def accessRam (a n : Nat) (effect : Result) : Result :=
  match firstOutside a n with
  | some bad => raise (.memoryFault bad)
  | none => effect

/-- The `n` bytes from an address upward. -/
def State.bytesAt (s : State) (a n : Nat) : List Byte := Memory.read s.params.fontset s.mem a n

/-- Bytes stored from an address upward. -/
def State.storeBytes (s : State) (a : Nat) (bs : List Byte) : State :=
  { s with mem := Memory.write s.params.fontset s.mem a bs }

/-! ### The fetch (20_memory.md R43) -/

/-- What a fetch gives: a word, or the address that is outside RAM. -/
inductive Fetched where
  | word (w : Word)
  | outside (a : Nat)
  deriving DecidableEq, Repr

/-- The instruction fetch at `pc`: two bytes, big-endian, the first address checked first, no alignment, no side
effect (20_memory.md R43, R45). -/
def State.fetch (s : State) : Fetched :=
  match firstOutside s.pc.toNat 2 with
  | some a => .outside a
  | none => .word (wordOfBytes (s.byteAt s.pc.toNat) (s.byteAt (s.pc.toNat + 1)))

/-! ### The framebuffer (10_state.md R18) -/

/-- `fb[y][x]`. -/
def Framebuffer.pixel (fb : Framebuffer) (y : Fin 32) (x : Fin 64) : Bool := fb[y.val][x.val]

/-- `fb[y][x] <- fb[y][x] ^ 1`. -/
def Framebuffer.toggle (fb : Framebuffer) (y : Fin 32) (x : Fin 64) : Framebuffer :=
  fb.set y.val (fb[y.val].set x.val (!fb[y.val][x.val]) x.isLt) y.isLt

/-- All 2048 pixels off. -/
def Framebuffer.blank : Framebuffer := Vector.replicate 32 (Vector.replicate 64 false)

/-- The framebuffer replaced as a whole. -/
def State.setFb (s : State) (fb : Framebuffer) : State := { s with fb := fb }

/-! ### The timer registers (10_state.md R16) -/

/-- `delay_timer <- b`. -/
def State.setDelayTimer (s : State) (b : Byte) : State := { s with delayTimer := b }

/-- `sound_timer <- b`. -/
def State.setSoundTimer (s : State) (b : Byte) : State := { s with soundTimer := b }

/-! ### The random port (44_random.md R150, 60_exceptions.md R226) -/

/-- The byte the random port delivers to this step: the next byte of the injected source, and a free value when none
is injected (log 2). -/
def State.randomByte (s : State) : Byte :=
  match s.rnd with
  | r :: _ => r
  | [] => Config.randomByte s.draws

/-- The draw is consumed. -/
def State.consumeDraw (s : State) : State := { s with rnd := s.rnd.tail, draws := s.draws + 1 }

end Sys2Proof.Machine
end

