-- ==== Sys2Proof/Machine/Flags.lean ====
section
/-! DEFINITION. Every flag computation of the spec, and the write of a result together with a flag
(spec/41_alu.md R114 to R119, 10_state.md R12, R31). A flag is 0x00 or 0x01 in the full 8-bit register. -/

namespace Sys2Proof.Machine

/-- A flag as the byte that `v[0xF]` receives (10_state.md R12). -/
def flagByte (f : Bool) : Byte := if f then 0x01#8 else 0x00#8

/-- Carry out of bit 7 of `a + b`: `a + b > 255` (41_alu.md R114). -/
def carryOut (a b : Byte) : Bool := decide (a.toNat + b.toNat > 255)

/-- Not-borrow of `a - b`: `a >= b`, equality included (41_alu.md R115). -/
def noBorrow (a b : Byte) : Bool := decide (a.toNat ≥ b.toNat)

/-- The bit a right shift by one shifts out: `a[0]` (41_alu.md R116). -/
def shiftedOutRight (a : Byte) : Bool := a.getLsbD 0

/-- The bit a left shift by one shifts out: `a[7]` (41_alu.md R118). -/
def shiftedOutLeft (a : Byte) : Bool := a.getLsbD 7

/-- The two writes of a flag-writing instruction, in the order in which they land (10_state.md R31). -/
def writesInOrder (order : VfAliasOrder) (x : Reg) (result : Byte) (flag : Bool) : (Reg × Byte) × (Reg × Byte) :=
  match order with
  | .flagLast => ((x, result), (flagReg, flagByte flag))
  | .resultLast => ((flagReg, flagByte flag), (x, result))

/-- Write a result to `v[x]` and a flag to `v[0xF]`; the order, the parameter VF_ALIAS_ORDER, decides what survives when
x = 0xF (10_state.md R31). -/
def State.writeResultAndFlag (order : VfAliasOrder) (s : State) (x : Reg) (result : Byte) (flag : Bool) : State :=
  let writes := writesInOrder order x result flag
  (s.setReg writes.1.1 writes.1.2).setReg writes.2.1 writes.2.2

end Sys2Proof.Machine
end

