-- ==== Sys2Proof/Machine/Alu.lean ====
section
/-! DEFINITION. Register-to-register arithmetic and logic, group 8 (spec/41_alu.md). All sources are read before any
write lands, and the destination is always `v[x]` (R119). -/

namespace Sys2Proof.Machine

/-- Move(x,y), 41_alu.md R110. -/
def execMove (x y : Reg) (s : State) : Result := complete (s.setReg x (s.reg y)).advance

/-- Or(x,y), 41_alu.md R111: no flag. -/
def execOr (x y : Reg) (s : State) : Result := complete (s.setReg x (s.reg x ||| s.reg y)).advance

/-- And(x,y), 41_alu.md R112: no flag. -/
def execAnd (x y : Reg) (s : State) : Result := complete (s.setReg x (s.reg x &&& s.reg y)).advance

/-- Xor(x,y), 41_alu.md R113: no flag. -/
def execXor (x y : Reg) (s : State) : Result := complete (s.setReg x (s.reg x ^^^ s.reg y)).advance

/-- AddReg(x,y), 41_alu.md R114: the sum modulo 256, and the carry. -/
def execAddReg (x y : Reg) (s : State) : Result :=
  let a := s.reg x
  let b := s.reg y
  complete (s.writeResultAndFlag s.params.vfAliasOrder x (a + b) (carryOut a b)).advance

/-- SubReg(x,y), 41_alu.md R115: `a - b` modulo 256, and not-borrow. -/
def execSubReg (x y : Reg) (s : State) : Result :=
  let a := s.reg x
  let b := s.reg y
  complete (s.writeResultAndFlag s.params.vfAliasOrder x (a - b) (noBorrow a b)).advance

/-- Shr(x), 41_alu.md R116: logical right shift by one, and the bit shifted out. -/
def execShr (x : Reg) (s : State) : Result :=
  let a := s.reg x
  complete (s.writeResultAndFlag s.params.vfAliasOrder x (a >>> 1) (shiftedOutRight a)).advance

/-- SubnReg(x,y), 41_alu.md R117: `b - a` modulo 256, and not-borrow. -/
def execSubnReg (x y : Reg) (s : State) : Result :=
  let a := s.reg x
  let b := s.reg y
  complete (s.writeResultAndFlag s.params.vfAliasOrder x (b - a) (noBorrow b a)).advance

/-- Shl(x), 41_alu.md R118: logical left shift by one, and the bit shifted out. -/
def execShl (x : Reg) (s : State) : Result :=
  let a := s.reg x
  complete (s.writeResultAndFlag s.params.vfAliasOrder x (a <<< 1) (shiftedOutLeft a)).advance

end Sys2Proof.Machine
end

