-- ==== Sys2Proof/Machine/Operands.lean ====
section
/-! DEFINITION. The operand forms (spec/30_encoding.md R63, 48_memory_block.md R183): immediates are zero-extended,
data addresses are `i + k` as natural numbers, key numbers are whole bytes, pixel coordinates wrap. -/

namespace Sys2Proof.Machine

/-- A 12-bit address zero-extended to 16 bits (30_encoding.md R63). -/
def zextAddr (addr : Nat) : Word := BitVec.ofNat 16 addr

/-- A byte zero-extended to 16 bits (00_scope.md R7). -/
def zextByte (b : Byte) : Word := b.setWidth 16

/-- The base of every data access: `i` as a natural number, never reduced (20_memory.md R42). -/
def State.base (s : State) : Nat := s.i.toNat

/-- Whether the key a byte names is pressed. A number of 16 or more names no key and is never down; the byte is not
reduced to its low nibble (46_keypad.md R165). -/
def State.keyDown (s : State) (k : Byte) : Bool := s.keys.toList.getD k.toNat false

/-- The lowest-numbered key at or above `k` that is pressed in a list of key bits. -/
def lowestPressedFrom (k : Nat) : List Bool → Option Nat
  | [] => none
  | b :: bs => if b then some k else lowestPressedFrom (k + 1) bs

/-- The lowest-numbered pressed key, if one is (46_keypad.md R167). -/
def State.lowestPressed (s : State) : Option Nat := lowestPressedFrom 0 s.keys.toList

/-- The three decimal digits of a byte, hundreds first (48_memory_block.md R180). -/
def bcdDigits (a : Byte) : List Byte :=
  [BitVec.ofNat 8 (a.toNat / 100), BitVec.ofNat 8 (a.toNat / 10 % 10), BitVec.ofNat 8 (a.toNat % 10)]

/-- A column, wrapped modulo 64 (45_display.md R155). -/
def wrapColumn (c : Nat) : Fin 64 := ⟨c % 64, by omega⟩

/-- A row, wrapped modulo 32 (45_display.md R155). -/
def wrapRow (r : Nat) : Fin 32 := ⟨r % 32, by omega⟩

/-- Pixel `col` of a sprite byte: bit 7 is the leftmost (45_display.md R157). -/
def spriteBit (b : Byte) (col : Nat) : Bool := b.getLsbD (7 - col)

end Sys2Proof.Machine
end

