-- ==== Sys2Proof/Machine/ControlFlow.lean ====
section
/-! DEFINITION. Jump, Call, Return, JumpPlusV0 (spec/40_control_flow.md). -/

namespace Sys2Proof.Machine

/-- Jump(addr), 40_control_flow.md R101. -/
def execJump (addr : Nat) (s : State) : Result := complete (s.setPc (zextAddr addr))

/-- Call(addr), 40_control_flow.md R102: pushes `npc`, or StackOverflow. -/
def execCall (addr : Nat) (s : State) : Result :=
  match s.push s.npc with
  | some t => complete (t.setPc (zextAddr addr))
  | none => raise .stackOverflow

/-- Return, 40_control_flow.md R103: pops into `pc`, or StackUnderflow. -/
def execReturn (s : State) : Result :=
  match s.pop with
  | some (a, t) => complete (t.setPc a)
  | none => raise .stackUnderflow

/-- JumpPlusV0(addr), 40_control_flow.md R104: the register is always `v[0]`, the sum is not reduced to 12 bits. -/
def execJumpPlusV0 (addr : Nat) (s : State) : Result := complete (s.setPc (zextAddr addr + zextByte (s.reg 0)))

end Sys2Proof.Machine
end

