-- ==== Sys2Proof/Machine/Display.lean ====
section
/-! DEFINITION. Draw and ClearScreen (spec/45_display.md). The sprite-XOR loop is R155's own: rows, then columns, and
the collision bit collected over the whole sprite. -/

namespace Sys2Proof.Machine

/-- One pixel of a sprite: a 1 bit toggles its pixel and reports whether it was lit; a 0 bit does nothing. -/
def drawPixel (cx cy row : Nat) (b : Byte) (acc : Framebuffer × Bool) (col : Nat) : Framebuffer × Bool :=
  if spriteBit b col then
    let px := wrapColumn (cx + col)
    let py := wrapRow (cy + row)
    (Framebuffer.toggle acc.1 py px, acc.2 || Framebuffer.pixel acc.1 py px)
  else acc

/-- One row of a sprite: columns 0 to 7. -/
def drawRow (cx cy row : Nat) (b : Byte) (acc : Framebuffer × Bool) : Framebuffer × Bool :=
  [0, 1, 2, 3, 4, 5, 6, 7].foldl (drawPixel cx cy row b) acc

/-- The rows of a sprite from `row` downward. -/
def drawRows (cx cy row : Nat) : List Byte → Framebuffer × Bool → Framebuffer × Bool
  | [], acc => acc
  | b :: bs, acc => drawRows cx cy (row + 1) bs (drawRow cx cy row b acc)

/-- Draw(x,y,n), 45_display.md R155: coordinates and base are latched, all sprite bytes are read (or the step faults)
before anything is written, and `v[0xF]` receives the collision bit. -/
def execDraw (x y : Reg) (n : Nat) (s : State) : Result :=
  let drawn := drawRows (s.reg x).toNat (s.reg y).toNat 0 (s.bytesAt s.base n) (s.fb, false)
  accessRam s.base n (complete ((s.setFb drawn.1).setReg flagReg (flagByte drawn.2)).advance)

/-- ClearScreen, 45_display.md R156: `v[0xF]` is not touched. -/
def execClearScreen (s : State) : Result := complete (s.setFb Framebuffer.blank).advance

end Sys2Proof.Machine
end

