-- ==== Sys2Proof/Machine/Immediate.lean ====
section
/-! DEFINITION. Immediate loads and compare-and-skip (spec/42_immediate_compare.md). -/

namespace Sys2Proof.Machine

/-- LoadImm(x,byte), 42_immediate_compare.md R130. -/
def execLoadImm (x : Reg) (byte : Byte) (s : State) : Result := complete (s.setReg x byte).advance

/-- AddImm(x,byte), 42_immediate_compare.md R131: modulo 256, no flag. -/
def execAddImm (x : Reg) (byte : Byte) (s : State) : Result := complete (s.setReg x (s.reg x + byte)).advance

/-- SkipEqImm(x,byte), 42_immediate_compare.md R132. -/
def execSkipEqImm (x : Reg) (byte : Byte) (s : State) : Result := complete (s.skipIf (s.reg x == byte))

/-- SkipNeqImm(x,byte), 42_immediate_compare.md R133. -/
def execSkipNeqImm (x : Reg) (byte : Byte) (s : State) : Result := complete (s.skipIf (s.reg x != byte))

/-- SkipEqReg(x,y), 42_immediate_compare.md R134. -/
def execSkipEqReg (x y : Reg) (s : State) : Result := complete (s.skipIf (s.reg x == s.reg y))

/-- SkipNeqReg(x,y), 42_immediate_compare.md R135. -/
def execSkipNeqReg (x y : Reg) (s : State) : Result := complete (s.skipIf (s.reg x != s.reg y))

end Sys2Proof.Machine
end

