-- ==== Sys2Proof/Machine/Index.lean ====
section
/-! DEFINITION. The index-register instructions (spec/43_index.md). -/

namespace Sys2Proof.Machine

/-- SetIndex(addr), 43_index.md R140. -/
def execSetIndex (addr : Nat) (s : State) : Result := complete (s.setIndex (zextAddr addr)).advance

/-- AddIndex(x), 43_index.md R141: modulo 65536, no flag, no mask. -/
def execAddIndex (x : Reg) (s : State) : Result := complete (s.setIndex (s.i + zextByte (s.reg x))).advance

/-- IndexToGlyph(x), 43_index.md R142: five times the whole byte. -/
def execIndexToGlyph (x : Reg) (s : State) : Result := complete (s.setIndex (5#16 * zextByte (s.reg x))).advance

end Sys2Proof.Machine
end

