-- ==== Sys2Proof/Machine/Keypad.lean ====
section
/-! DEFINITION. The keypad instructions (spec/46_keypad.md). -/

namespace Sys2Proof.Machine

/-- SkipIfKeyDown(x), 46_keypad.md R165. -/
def execSkipIfKeyDown (x : Reg) (s : State) : Result := complete (s.skipIf (s.keyDown (s.reg x)))

/-- SkipIfKeyUp(x), 46_keypad.md R166. -/
def execSkipIfKeyUp (x : Reg) (s : State) : Result := complete (s.skipIf (!s.keyDown (s.reg x)))

/-- WaitKey(x), 46_keypad.md R167: with no key down the step succeeds and leaves `pc` at the instruction; otherwise
the lowest pressed key goes to `v[x]`. -/
def execWaitKey (x : Reg) (s : State) : Result :=
  match s.lowestPressed with
  | none => complete s
  | some k => complete (s.setReg x (BitVec.ofNat 8 k)).advance

end Sys2Proof.Machine
end

