-- ==== Sys2Proof/Machine/MemoryBlock.lean ====
section
/-! DEFINITION. StoreBCD, StoreRegs, LoadRegs (spec/48_memory_block.md). All addresses are checked before the first
byte moves (R184); `i` is never changed (R183). -/

namespace Sys2Proof.Machine

/-- StoreBCD(x), 48_memory_block.md R180. -/
def execStoreBCD (x : Reg) (s : State) : Result :=
  accessRam s.base 3 (complete (s.storeBytes s.base (bcdDigits (s.reg x))).advance)

/-- StoreRegs(x), 48_memory_block.md R181. -/
def execStoreRegs (x : Reg) (s : State) : Result :=
  accessRam s.base (x.val + 1) (complete (s.storeBytes s.base (s.regsUpTo x)).advance)

/-- LoadRegs(x), 48_memory_block.md R182. -/
def execLoadRegs (x : Reg) (s : State) : Result :=
  accessRam s.base (x.val + 1) (complete (s.setRegsFrom (s.bytesAt s.base (x.val + 1))).advance)

end Sys2Proof.Machine
end

