-- ==== Sys2Proof/Machine/Random.lean ====
section
/-! DEFINITION. Random (spec/44_random.md). -/

namespace Sys2Proof.Machine

/-- Random(x,byte), 44_random.md R150: the drawn byte masked; the draw is always consumed. -/
def execRandom (x : Reg) (byte : Byte) (s : State) : Result :=
  complete (s.consumeDraw.setReg x (s.randomByte &&& byte)).advance

end Sys2Proof.Machine
end

