-- ==== Sys2Proof/Machine/Timers.lean ====
section
/-! DEFINITION. The timer-register instructions (spec/47_timers.md). The countdown is the host operation Tick. -/

namespace Sys2Proof.Machine

/-- ReadDelay(x), 47_timers.md R175. -/
def execReadDelay (x : Reg) (s : State) : Result := complete (s.setReg x s.delayTimer).advance

/-- WriteDelay(x), 47_timers.md R176. -/
def execWriteDelay (x : Reg) (s : State) : Result := complete (s.setDelayTimer (s.reg x)).advance

/-- WriteSound(x), 47_timers.md R177. -/
def execWriteSound (x : Reg) (s : State) : Result := complete (s.setSoundTimer (s.reg x)).advance

end Sys2Proof.Machine
end

