-- ==== Sys2Proof/Machine/Dispatch.lean ====
section
/-! DEFINITION. One arm per constructor of Instr (spec/30_encoding.md R66). -/

namespace Sys2Proof.Machine

def exec (i : Instr) (s : State) : Host.Outcome State Fault Refusal :=
  match i with
  | .clearScreen => Sys2Proof.Machine.execClearScreen s
  | .ret => Sys2Proof.Machine.execReturn s
  | .jump addr => Sys2Proof.Machine.execJump addr s
  | .call addr => Sys2Proof.Machine.execCall addr s
  | .skipEqImm x byte => Sys2Proof.Machine.execSkipEqImm x byte s
  | .skipNeqImm x byte => Sys2Proof.Machine.execSkipNeqImm x byte s
  | .skipEqReg x y => Sys2Proof.Machine.execSkipEqReg x y s
  | .loadImm x byte => Sys2Proof.Machine.execLoadImm x byte s
  | .addImm x byte => Sys2Proof.Machine.execAddImm x byte s
  | .move x y => Sys2Proof.Machine.execMove x y s
  | .orReg x y => Sys2Proof.Machine.execOr x y s
  | .andReg x y => Sys2Proof.Machine.execAnd x y s
  | .xorReg x y => Sys2Proof.Machine.execXor x y s
  | .addReg x y => Sys2Proof.Machine.execAddReg x y s
  | .subReg x y => Sys2Proof.Machine.execSubReg x y s
  | .shr x => Sys2Proof.Machine.execShr x s
  | .subnReg x y => Sys2Proof.Machine.execSubnReg x y s
  | .shl x => Sys2Proof.Machine.execShl x s
  | .skipNeqReg x y => Sys2Proof.Machine.execSkipNeqReg x y s
  | .setIndex addr => Sys2Proof.Machine.execSetIndex addr s
  | .jumpPlusV0 addr => Sys2Proof.Machine.execJumpPlusV0 addr s
  | .random x byte => Sys2Proof.Machine.execRandom x byte s
  | .draw x y n => Sys2Proof.Machine.execDraw x y n s
  | .skipIfKeyDown x => Sys2Proof.Machine.execSkipIfKeyDown x s
  | .skipIfKeyUp x => Sys2Proof.Machine.execSkipIfKeyUp x s
  | .readDelay x => Sys2Proof.Machine.execReadDelay x s
  | .waitKey x => Sys2Proof.Machine.execWaitKey x s
  | .writeDelay x => Sys2Proof.Machine.execWriteDelay x s
  | .writeSound x => Sys2Proof.Machine.execWriteSound x s
  | .addIndex x => Sys2Proof.Machine.execAddIndex x s
  | .indexToGlyph x => Sys2Proof.Machine.execIndexToGlyph x s
  | .storeBCD x => Sys2Proof.Machine.execStoreBCD x s
  | .storeRegs x => Sys2Proof.Machine.execStoreRegs x s
  | .loadRegs x => Sys2Proof.Machine.execLoadRegs x s

end Sys2Proof.Machine
end

