-- ==== Sys2Proof/Machine/HostOps.lean ====
section
/-! DEFINITION. The host operations besides Step (spec/60_exceptions.md R220 to R227, 70_reset_and_hazards.md R240 to
R246). Each is atomic. -/

namespace Sys2Proof.Machine

/-- One countdown unit: decremented by 1, floored at 0 (60_exceptions.md R220). -/
def countDown (t : Byte) : Byte := if t = 0x00#8 then t else t - 1#8

/-- `Tick`, 60_exceptions.md R220: both timers, independently, and nothing else. -/
def hostTick (s : State) : State :=
  { s with delayTimer := countDown s.delayTimer, soundTimer := countDown s.soundTimer }

/-- `SetKey(index, pressed)`, 60_exceptions.md R223: an index of 16 or more is ignored. -/
def hostSetKey (index : Nat) (pressed : Bool) (s : State) : State :=
  { s with keys := s.keys.setIfInBounds index pressed }

/-- `Load(bytes)`, 70_reset_and_hazards.md R245: exactly the image's bytes from 0x200, or OversizeImage and nothing. -/
def hostLoad (image : List Byte) (s : State) : Result :=
  if image.length > Config.maxImage then raise .oversizeImage
  else complete (s.storeBytes Config.programOrigin image)

/-- `Reset`, 70_reset_and_hazards.md R240, R242: every field of the CORE at its power-on value. The random source is
not part of the CORE and is untouched (R151, R242), the host goes on with its own schedule, and the machine keeps its
parameters. -/
def hostReset (s : State) : State :=
  { State.resetWith s.params with rnd := s.rnd, draws := s.draws, schedule := s.schedule }

/-- `Framebuffer()`, 60_exceptions.md R224: the 2048 pixels as they stand. -/
def framebuffer (s : State) : Framebuffer := s.fb

/-- The flat, row-major view of the framebuffer: element `y * 64 + x` (10_state.md R18). -/
def framebufferFlat (s : State) : List Bool := s.fb.toList.flatMap fun row => row.toList

/-- The timer read, 60_exceptions.md R225: `delay_timer` and `sound_timer`. -/
def timerRead (s : State) : Byte × Byte := (s.delayTimer, s.soundTimer)

/-- The edge an observer derives from two timer reads: `sound_timer` went from 1 to 0 (60_exceptions.md R225). The
CORE holds no edge detector. -/
def soundEdge (before after : State) : Bool := before.soundTimer == 0x01#8 && after.soundTimer == 0x00#8

end Sys2Proof.Machine
end

