-- ==== Sys2Proof/Machine/Cycle.lean ====
section
/-! DEFINITION. The step cycle and the operation-level interface (spec/10_state.md R30, 60_exceptions.md R207, R227,
20_memory.md R51). -/

namespace Sys2Proof.Machine

/-- `Step`: one fetch-decode-execute cycle (10_state.md R30). The fetch fault comes first, then UnknownOpcode, then
the instruction's own fault (60_exceptions.md R207). -/
def cycle (s : State) : Result :=
  match s.fetch with
  | .outside a => raise (.memoryFault a)
  | .word w =>
    match decode w with
    | .unknown raw => raise (.unknownOpcode raw)
    | .instr i => exec i s

/-- One host operation (60_exceptions.md R227). The two observations change nothing; what they answer is
`framebuffer` and `timerRead`. -/
def perform (op : HostOp) (s : State) : Result :=
  match op with
  | .step => cycle s
  | .tick => complete (hostTick s)
  | .setKey index pressed => complete (hostSetKey index pressed s)
  | .load image => hostLoad image s
  | .reset => complete (hostReset s)
  | .readFramebuffer => complete s
  | .readTimers => complete s

/-- The next operation the host issues, and the state with that operation taken off the schedule; with nothing
scheduled the host issues `Step` (log 1). -/
def State.nextOp (s : State) : HostOp × State :=
  match s.schedule with
  | [] => (.step, s)
  | op :: rest => (op, { s with schedule := rest })

end Sys2Proof.Machine
end

