-- ==== Sys2Proof/Machine/Step.lean ====
section
/-! DEFINITION. One transition of the machine: the next operation of the host (spec/20_memory.md R51, 10_state.md
R30). -/

namespace Sys2Proof.Machine

/-- One transition: perform the host's next operation. With an empty schedule, as after reset, every transition is one
`Step` (log 1). -/
def step (s : State) : Host.Outcome State Fault Refusal := perform s.nextOp.1 s.nextOp.2

/-- `s` with the instruction whose bits are `w` (bit 0 the least significant bit of the 16-bit word, bits at and above
`nbits` zero) stored where `step` fetches next: the two bytes at `pc`, high byte first. What the fetch needs besides:
the next operation is a `Step` (nothing else scheduled), and `pc` is an address a fetch can succeed from, so a `pc`
above 4094 is set to the program origin 0x200 (log 20). -/
def State.withFetchWord (s : State) (nbits w : Nat) : State :=
  let word : Word := BitVec.ofNat 16 (w % 2 ^ nbits)
  let at0 : Word := if s.pc.toNat + 1 < Config.ramSize then s.pc else BitVec.ofNat 16 Config.programOrigin
  { s with
    pc := at0
    mem := Memory.write s.params.fontset s.mem at0.toNat [highByte word, lowByte word]
    schedule := [] }

end Sys2Proof.Machine
end

