-- ==== Sys2Proof/Machine/Controls.lean ====
section
/-! DEFINITION. The decoder's datapath controls (spec/30_encoding.md R70), the spec's second table of the instructions:
which registers, units and faults each of the 34 variants involves. The meanings are not written from it; the
statements hold the two against each other. -/

namespace Sys2Proof.Machine

/-- Column `pcsel`: where the next `pc` comes from. -/
inductive PcSource where
  /-- `npc` -/
  | seq
  /-- the operand `addr` -/
  | addr
  /-- `addr + v[0]` -/
  | addrPlusV0
  /-- the popped stack entry -/
  | pop
  /-- `npc + 2` on condition, else `npc` -/
  | skip
  /-- `pc0` when no key is pressed, else `npc` -/
  | hold
  deriving DecidableEq, Repr

/-- Column `stk`. -/
inductive StackAction where
  | idle | pop | pushNpc
  deriving DecidableEq, Repr

/-- Column `fb`. -/
inductive FbAction where
  | idle | clear | xorCollide
  deriving DecidableEq, Repr

/-- Column `key`. -/
inductive KeyAction where
  | idle | test | scanLowest
  deriving DecidableEq, Repr

/-- Column `tmr`. -/
inductive TimerAction where
  | idle | readDelay | writeDelay | writeSound
  deriving DecidableEq, Repr

/-- Column `xfault`: the fault the execute stage can raise. -/
inductive ExecFault where
  | noFault | stackUnderflow | stackOverflow | memoryFault
  deriving DecidableEq, Repr

/-- The controls of one variant, column by column. `vrd` and `vwr` are general registers read and written as operands,
`flagWrite` is the letter F of column `vwr`, `ramRead` and `ramWrite` are byte counts at `i`. WaitKey writes its
register only when a key is down. -/
structure Controls where
  vrd : List Reg := []
  vwr : List Reg := []
  flagWrite : Bool := false
  indexRead : Bool := false
  indexWrite : Bool := false
  pcsel : PcSource := .seq
  stk : StackAction := .idle
  ramRead : Nat := 0
  ramWrite : Nat := 0
  fb : FbAction := .idle
  key : KeyAction := .idle
  tmr : TimerAction := .idle
  rnd : Bool := false
  xfault : ExecFault := .noFault
  deriving DecidableEq, Repr

/-- The registers `v[0]` to `v[x]`. -/
def regsTo (x : Reg) : List Reg := (List.finRange 16).filter fun k => k.val ≤ x.val

/-- The table of R70. -/
def controls : Instr → Controls
  | .clearScreen => { fb := .clear }
  | .ret => { pcsel := .pop, stk := .pop, xfault := .stackUnderflow }
  | .jump _ => { pcsel := .addr }
  | .call _ => { pcsel := .addr, stk := .pushNpc, xfault := .stackOverflow }
  | .skipEqImm x _ => { vrd := [x], pcsel := .skip }
  | .skipNeqImm x _ => { vrd := [x], pcsel := .skip }
  | .skipEqReg x y => { vrd := [x, y], pcsel := .skip }
  | .loadImm x _ => { vwr := [x] }
  | .addImm x _ => { vrd := [x], vwr := [x] }
  | .move x y => { vrd := [y], vwr := [x] }
  | .orReg x y => { vrd := [x, y], vwr := [x] }
  | .andReg x y => { vrd := [x, y], vwr := [x] }
  | .xorReg x y => { vrd := [x, y], vwr := [x] }
  | .addReg x y => { vrd := [x, y], vwr := [x], flagWrite := true }
  | .subReg x y => { vrd := [x, y], vwr := [x], flagWrite := true }
  | .shr x => { vrd := [x], vwr := [x], flagWrite := true }
  | .subnReg x y => { vrd := [x, y], vwr := [x], flagWrite := true }
  | .shl x => { vrd := [x], vwr := [x], flagWrite := true }
  | .skipNeqReg x y => { vrd := [x, y], pcsel := .skip }
  | .setIndex _ => { indexWrite := true }
  | .jumpPlusV0 _ => { vrd := [0], pcsel := .addrPlusV0 }
  | .random x _ => { vwr := [x], rnd := true }
  | .draw x y n => { vrd := [x, y], flagWrite := true, indexRead := true, ramRead := n, fb := .xorCollide, xfault := .memoryFault }
  | .skipIfKeyDown x => { vrd := [x], pcsel := .skip, key := .test }
  | .skipIfKeyUp x => { vrd := [x], pcsel := .skip, key := .test }
  | .readDelay x => { vwr := [x], tmr := .readDelay }
  | .waitKey x => { vwr := [x], pcsel := .hold, key := .scanLowest }
  | .writeDelay x => { vrd := [x], tmr := .writeDelay }
  | .writeSound x => { vrd := [x], tmr := .writeSound }
  | .addIndex x => { vrd := [x], indexRead := true, indexWrite := true }
  | .indexToGlyph x => { vrd := [x], indexWrite := true }
  | .storeBCD x => { vrd := [x], indexRead := true, ramWrite := 3, xfault := .memoryFault }
  | .storeRegs x => { vrd := regsTo x, indexRead := true, ramWrite := x.val + 1, xfault := .memoryFault }
  | .loadRegs x => { vwr := regsTo x, indexRead := true, ramRead := x.val + 1, xfault := .memoryFault }

/-- The general registers a variant can write: its operands' registers, and the flag register where it writes a
flag. -/
def Controls.regsWritten (c : Controls) : List Reg := if c.flagWrite then flagReg :: c.vwr else c.vwr

end Sys2Proof.Machine
end

