-- ==== Sys2Proof/Safety.lean ====
section
/-! DEFINITION. The terms claims are stated in: which parts of the state an instruction leaves alone, the invariant of
the machine, runs and what counts as a run gone wrong (spec/10_state.md R22, R33; 60_exceptions.md R205, R206;
70_reset_and_hazards.md R255). -/

namespace Sys2Proof.Machine

/-! ### Frames -/

/-- The parts of the state other than `pc`. -/
inductive Part where
  | regs | index | stack | ram | keys | delayTimer | soundTimer | display | randomPort | schedule | params
  deriving DecidableEq, Repr

/-- A part is in `t` as it was in `s`. RAM is compared byte by byte through the model's read of one byte. -/
def Part.same (p : Part) (s t : State) : Prop :=
  match p with
  | .regs => ∀ k : Reg, t.reg k = s.reg k
  | .index => t.i = s.i
  | .stack => t.sp = s.sp ∧ t.stack = s.stack
  | .ram => ∀ a : Nat, t.byteAt a = s.byteAt a
  | .keys => t.keys = s.keys
  | .delayTimer => t.delayTimer = s.delayTimer
  | .soundTimer => t.soundTimer = s.soundTimer
  | .display => t.fb = s.fb
  | .randomPort => t.rnd = s.rnd ∧ t.draws = s.draws
  | .schedule => t.schedule = s.schedule
  | .params => t.params = s.params

/-- Every part that is not listed is unchanged; `pc` is not spoken of. -/
def OnlyChanges (parts : List Part) (s t : State) : Prop := ∀ p : Part, p ∉ parts → p.same s t

/-- Every general register that is not listed is unchanged. -/
def RegsKeptBut (written : List Reg) (s t : State) : Prop := ∀ k : Reg, k ∉ written → t.reg k = s.reg k

/-- Every byte of RAM outside the `n` bytes from `a` upward is unchanged. -/
def RamKeptOutside (a n : Nat) (s t : State) : Prop := ∀ b : Nat, (b < a ∨ a + n ≤ b) → t.byteAt b = s.byteAt b

/-- Every field of the CORE, `pc` included, is equal; the environment's inputs are not spoken of. -/
def SameCore (s t : State) : Prop :=
  t.pc = s.pc ∧ OnlyChanges [.randomPort, .schedule] s t

/-! ### Completing, encoding, power-on -/

/-- The instruction completes: `exec` answers a next state, and the state it answers is as `post` says. -/
def Completes (i : Instr) (s : State) (post : State → Prop) : Prop := ∃ t : State, exec i s = .next t ∧ post t

/-- A host operation completes: `perform` answers a next state, and the state it answers is as `post` says. -/
def Performs (op : HostOp) (s : State) (post : State → Prop) : Prop := ∃ t : State, perform op s = .next t ∧ post t

/-- Every word with `w & mask = match` decodes to the instruction `f w` (30_encoding.md R66). -/
def EncodedAs (mask matchBits : Word) (f : Word → Instr) : Prop :=
  ∀ w : Word, w &&& mask = matchBits → decode w = .instr (f w)

/-- The power-on value of every piece of the CORE's state (70_reset_and_hazards.md R242). The fontset is the
parameter FONTSET that the state carries. -/
def PowerOn (s : State) : Prop :=
  s.pc = 0x0200#16 ∧ (∀ k : Reg, s.reg k = 0#8) ∧ s.i = 0#16 ∧ s.sp.val = 0 ∧
  (∀ k : Fin 16, s.stack[k.val] = 0#16) ∧ (∀ k : Fin 16, s.keys[k.val] = false) ∧
  s.delayTimer = 0#8 ∧ s.soundTimer = 0#8 ∧ (∀ (y : Fin 32) (x : Fin 64), s.fb.pixel y x = false) ∧
  (∀ k : Fin 80, s.byteAt k.val = s.params.fontset[k.val]) ∧
  (∀ a : Nat, 80 ≤ a → a < 4096 → s.byteAt a = 0#8)

/-- A result with its next state, if it has one, changed by `f`. -/
def mapNext (f : State → State) : Result → Result
  | .next t => .next (f t)
  | .fault r => .fault r
  | .refused r => .refused r

/-! ### The sprite that Draw draws (45_display.md R155) -/

/-- The pixel of row `py`, column `px` is one that the sprite of `n` rows at `i` has a 1 bit for, when it is drawn at
column `cx` and row `cy`: some sprite row and column, wrapped on both axes, is that pixel, and the bit is 1. -/
def SpriteCovers (s : State) (cx cy n : Nat) (py : Fin 32) (px : Fin 64) : Prop :=
  ∃ row : Nat, ∃ col : Nat, row < n ∧ col < 8 ∧ (cy + row) % 32 = py.val ∧ (cx + col) % 64 = px.val ∧
    (s.byteAt (s.base + row)).getLsbD (7 - col) = true

/-! ### The invariant of the machine -/

/-- RAM is in its canonical form; `pc` never exceeds 0x10FE (10_state.md R33); every stack entry is an address Call
can push or zero, at most 4096 (10_state.md R33). That `sp` is at most 16 (R22) is carried by its type. -/
def Inv (s : State) : Prop :=
  Memory.wf s.params.fontset s.mem ∧ s.pc.toNat ≤ 0x10FE ∧ ∀ k : Fin 16, s.stack[k.val].toNat ≤ 4096

/-! ### Runs -/

/-- The states that some number of transitions reaches from a state; the host's operations are those that state has
scheduled. -/
inductive Reaches (s : State) : State → Prop where
  | start : Reaches s s
  | more (t u : State) : Reaches s t → step t = .next u → Reaches s u

/-- How a bounded run ends. -/
inductive RunEnd where
  /-- the parameter END_OF_RUN holds of the state -/
  | ended (s : State)
  /-- the bound was reached first -/
  | unfinished (s : State)
  /-- an operation reported a fault: the run has gone wrong (60_exceptions.md R206) -/
  | wrong (f : Fault)
  /-- an instruction was refused -/
  | stopped (r : Refusal)
  deriving DecidableEq, Repr

/-- At most `fuel` transitions, until END_OF_RUN holds. END_OF_RUN is OPEN in the spec (00_scope.md R5,
92_eei_decisions.md D16): it is an argument here (log 19). -/
def runUntil (endOfRun : State → Bool) : Nat → State → RunEnd
  | 0, s => if endOfRun s then .ended s else .unfinished s
  | fuel + 1, s =>
    if endOfRun s then .ended s
    else match step s with
      | .next t => runUntil endOfRun fuel t
      | .fault f => .wrong f
      | .refused r => .stopped r

/-- A candidate for END_OF_RUN: `pc` is at a Jump to its own address (70_reset_and_hazards.md R255). -/
def atSelfJump (s : State) : Bool :=
  match s.fetch with
  | .word w => decide (decode w = .instr (.jump s.pc.toNat))
  | .outside _ => false

/-- A candidate for END_OF_RUN: `pc` is at a WaitKey and no key is pressed (70_reset_and_hazards.md R255). -/
def atIdleWaitKey (s : State) : Bool :=
  match s.fetch with
  | .word w =>
    match decode w with
    | .instr (.waitKey _) => s.lowestPressed.isNone
    | _ => false
  | .outside _ => false

/-- What the host keeps when it logs faults and goes on: the state and the faults reported so far, newest first.
A fault is never cleared (60_exceptions.md R206). -/
structure RunRecord where
  state : State
  faults : List Fault
  deriving DecidableEq, Repr

/-- One operation of a host that logs and continues: a reported fault leaves the state as it was and is recorded, and
the next operation is accepted as if it had not happened (60_exceptions.md R205, R206). -/
def RunRecord.after (r : RunRecord) (op : HostOp) : RunRecord :=
  match perform op r.state with
  | .next t => { r with state := t }
  | .fault f => { r with faults := f :: r.faults }
  | .refused _ => r

/-- A host's operations in the order it issues them. -/
def RunRecord.drive (r : RunRecord) (ops : List HostOp) : RunRecord := ops.foldl RunRecord.after r

/-- The run has gone wrong: some operation of it reported a fault (60_exceptions.md R206). -/
def RunRecord.goneWrong (r : RunRecord) : Bool := !r.faults.isEmpty

end Sys2Proof.Machine
end

