-- ==== Sys2Proof/Certificates/Slice0/Obligations.lean ====
section
/-! DEFINITION. The statements for the provers, from the numbered rules of spec/. Each docstring says which rule it
formalises; where a clause rests on a decision of the spec (92_eei_decisions.md) or on a choice of this model, it names
the decision and the log entry. -/

open Sys2Proof Sys2Proof.Machine

/-! ### Reset -/

/-- R241, R242: the state after reset has every piece of the CORE at its power-on value, whatever the parameters FONTSET
and VF_ALIAS_ORDER are; this hardware's is the one of its own parameters, with VF_ALIAS_ORDER at flag_last (R5; the
spec's decision D4, log 5; the parameters stand in the state by the model's choice, log 29). The values of the model's
other own fields are not spoken of. -/
def Obligations.ResetIsThePowerOnState : Prop :=
  (∀ p : Parameters, PowerOn (State.resetWith p) ∧ (State.resetWith p).params = p) ∧
  State.reset = State.resetWith crust8Parameters ∧ crust8Parameters.vfAliasOrder = .flagLast

/-- R240: `Reset` completes from every state, faulted or not, brings every piece of the CORE to its power-on value
(a loaded program is erased with RAM, whatever FONTSET is), and takes nothing from the random source (R151). -/
def Obligations.HostResetRestoresPowerOn : Prop :=
  ∀ s : State, Performs .reset s fun t => PowerOn t ∧ Part.same .randomPort s t ∧ Part.same .params s t

/-! ### Encoding -/

/-- R61: the fields of every word, as numbers of the word, and the two bytes it lies in memory as (20_memory.md R43). -/
def Obligations.FieldsAreTheSpecsSlices : Prop :=
  ∀ w : Word,
    (fieldN1 w).toNat = w.toNat / 4096 ∧ (fieldX w).val = w.toNat / 256 % 16 ∧ (fieldY w).val = w.toNat / 16 % 16 ∧
    (fieldN4 w).toNat = w.toNat % 16 ∧ fieldN w = w.toNat % 16 ∧ (fieldByte w).toNat = w.toNat % 256 ∧
    fieldAddr w = w.toNat % 4096 ∧ (highByte w).toNat = w.toNat / 256 ∧ (lowByte w).toNat = w.toNat % 256 ∧
    ∀ hi lo : Byte, (wordOfBytes hi lo).toNat = 256 * hi.toNat + lo.toNat

/-- 95_test_vectors.md 2.1: words written out from the encodings decode to the instructions they stand for. -/
def Obligations.SpecWordsDecode : Prop :=
  decode 0x00E0#16 = .instr .clearScreen ∧ decode 0x00EE#16 = .instr .ret ∧ decode 0x2FFF#16 = .instr (.call 0xFFF) ∧
  decode 0x3A7F#16 = .instr (.skipEqImm 10 0x7F#8) ∧ decode 0x6005#16 = .instr (.loadImm 0 0x05#8) ∧
  decode 0x81F6#16 = .instr (.shr 1) ∧ decode 0x8FF7#16 = .instr (.subnReg 15 15) ∧
  decode 0xD12F#16 = .instr (.draw 1 2 15) ∧ decode 0xF30A#16 = .instr (.waitKey 3) ∧
  decode 0xF233#16 = .instr (.storeBCD 2) ∧ decode 0x01E0#16 = .unknown 0x01E0#16 ∧
  decode 0x8128#16 = .unknown 0x8128#16 ∧ decode 0xF075#16 = .unknown 0xF075#16

/-- R60, R66, R71, 20_memory.md R43: the bytes of every well-formed instruction, whatever follows them, decode to that
instruction and leave what follows. -/
def Obligations.DecodeOfEncodedBytesIsTheInstruction : Prop :=
  ∀ (i : Instr) (rest : List Byte), i.wellFormed = true → decodeBytes (encodeBytes i ++ rest) = .instr i rest

/-- R63, R68: what the decoder gives is well-formed, and its encoding is the word it was read from, the ignored `y`
nibble of Shr and Shl written as 0 (R71, decision D24, log 27). -/
def Obligations.DecodedInstructionEncodesBack : Prop :=
  ∀ (w : Word) (i : Instr), decode w = .instr i →
    i.wellFormed = true ∧ encode i = if i.op = 15 ∨ i.op = 17 then w &&& 0xFF0F#16 else w

/-- R64, R65, R66: the decoder gives an instruction exactly when a row of the opcode map matches, and then that row's;
no word matches two rows. -/
def Obligations.DecoderFollowsTheOpcodeMap : Prop :=
  ∀ w : Word,
    (∀ i : Instr, decode w = .instr i → ∃ r ∈ opcodeMap, r.op = i.op ∧ r.matches w = true) ∧
    (∀ r ∈ opcodeMap, r.matches w = true → ∃ i : Instr, decode w = .instr i ∧ i.op = r.op) ∧
    (∀ r ∈ opcodeMap, ∀ r' ∈ opcodeMap, r.matches w = true → r'.matches w = true → r = r')

/-- R67: the illegal words, by major opcode; the verdict carries the raw word. -/
def Obligations.IllegalWordsAreExactly : Prop :=
  ∀ w : Word,
    (∀ raw : Word, decode w = .unknown raw → raw = w) ∧
    (decode w = .unknown w ↔
      (w.toNat / 4096 = 0 ∧ w.toNat ≠ 0x00E0 ∧ w.toNat ≠ 0x00EE) ∨
      (w.toNat / 4096 = 5 ∧ w.toNat % 16 ≠ 0) ∨
      (w.toNat / 4096 = 8 ∧ w.toNat % 16 ∈ [0x8, 0x9, 0xA, 0xB, 0xC, 0xD, 0xF]) ∨
      (w.toNat / 4096 = 9 ∧ w.toNat % 16 ≠ 0) ∨
      (w.toNat / 4096 = 14 ∧ w.toNat % 256 ∉ [0x9E, 0xA1]) ∨
      (w.toNat / 4096 = 15 ∧ w.toNat % 256 ∉ [0x07, 0x0A, 0x15, 0x18, 0x1E, 0x29, 0x33, 0x55, 0x65]))

/-! ### The step -/

/-- R30: when the two bytes at `pc`, high byte first, decode to an instruction, a step is that instruction on that
state; nothing is added around it. The operation the host issues is a `Step`, by an empty schedule or by a scheduled
one, which is then taken off the schedule (log 1). -/
def Obligations.StepRunsTheDecodedInstruction : Prop :=
  ∀ (s : State) (i : Instr), s.pc.toNat ≤ 4094 →
    decode (wordOfBytes (s.byteAt s.pc.toNat) (s.byteAt (s.pc.toNat + 1))) = .instr i →
    (s.schedule = [] → step s = exec i s) ∧
    (∀ rest : List HostOp, s.schedule = .step :: rest → step s = exec i { s with schedule := rest })

/-- R43: the fetch reads `ram[pc]` as bits 15 to 8 and `ram[pc + 1]` as bits 7 to 0, at any address, odd or even, from
0 to 4094; from 4095 the fault is at 4096, and from 4096 upward it is at `pc`. -/
def Obligations.FetchIsBigEndianAndChecked : Prop :=
  ∀ s : State,
    (s.pc.toNat ≤ 4094 → ∃ w : Word, s.fetch = .word w ∧
      w.toNat / 256 = (s.byteAt s.pc.toNat).toNat ∧ w.toNat % 256 = (s.byteAt (s.pc.toNat + 1)).toNat) ∧
    (s.schedule = [] → s.pc.toNat = 4095 → step s = .fault (.memoryFault 4096)) ∧
    (s.schedule = [] → 4096 ≤ s.pc.toNat → step s = .fault (.memoryFault s.pc.toNat))

/-- R201: a fetched word that is no instruction is reported as it was fetched. -/
def Obligations.UnknownOpcodeCarriesTheFetchedWord : Prop :=
  ∀ (s : State) (raw : Word), s.schedule = [] → s.pc.toNat ≤ 4094 →
    decode (wordOfBytes (s.byteAt s.pc.toNat) (s.byteAt (s.pc.toNat + 1))) = .unknown raw →
    step s = .fault (.unknownOpcode raw) ∧
      raw = wordOfBytes (s.byteAt s.pc.toNat) (s.byteAt (s.pc.toNat + 1))

/-- R51, R227, and this model's schedule (log 1): a step performs the operation the host has scheduled first, whichever
it is, on the state without it. -/
def Obligations.StepPerformsTheScheduledOperation : Prop :=
  ∀ (s : State) (op : HostOp) (rest : List HostOp), s.schedule = op :: rest →
    step s = perform op { s with schedule := rest }

/-- R69, R209: no instruction is ever refused, and no step is. -/
def Obligations.NothingIsRefused : Prop :=
  (∀ (i : Instr) (s : State) (r : Refusal), exec i s ≠ .refused r) ∧ ∀ (s : State) (r : Refusal), step s ≠ .refused r

/-- R202, R203, R204: the execute stage faults in these cases and no others, and then with these faults. -/
def Obligations.ExecuteFaultsAreExactly : Prop :=
  ∀ (i : Instr) (s : State) (f : Fault), exec i s = .fault f ↔
    (∃ addr, i = .call addr ∧ s.sp.val = 16 ∧ f = .stackOverflow) ∨
    (i = .ret ∧ s.sp.val = 0 ∧ f = .stackUnderflow) ∨
    (∃ x y n, i = .draw x y n ∧ 0 < n ∧ 4096 < s.i.toNat + n ∧ f = .memoryFault (max s.i.toNat 4096)) ∨
    (∃ x, i = .storeBCD x ∧ 4096 < s.i.toNat + 3 ∧ f = .memoryFault (max s.i.toNat 4096)) ∨
    (∃ x : Reg, (i = .storeRegs x ∨ i = .loadRegs x) ∧ 4096 ≤ s.i.toNat + x.val ∧
      f = .memoryFault (max s.i.toNat 4096))

/-- R206, with R205 (decision D2, log 6): a `Step` that faults leaves the machine where the same `Step` faults again,
also after a `Tick`, a `SetKey` or an observation; the one operation after which it may go otherwise is a `Load` or a
`Reset`. So over any operations but those two, each `Step` adds that fault to a host's record (the record is the
model's, log 22) and no recorded fault is ever cleared, whatever the operations are. -/
def Obligations.FaultedStepFaultsUntilLoadOrReset : Prop :=
  (∀ (s : State) (f : Fault), perform .step s = .fault f →
    (Performs .tick s fun t => perform .step t = .fault f) ∧
    (∀ (index : Nat) (pressed : Bool), Performs (.setKey index pressed) s fun t => perform .step t = .fault f) ∧
    (Performs .readFramebuffer s fun t => perform .step t = .fault f) ∧
    (Performs .readTimers s fun t => perform .step t = .fault f) ∧
    ∀ (op : HostOp) (t : State), perform op s = .next t → perform .step t ≠ .fault f →
      op = .reset ∨ ∃ image : List Byte, op = .load image) ∧
  (∀ (ops : List HostOp) (r : RunRecord) (f : Fault), perform .step r.state = .fault f →
    .reset ∉ ops → (∀ image : List Byte, .load image ∉ ops) →
      perform .step (r.drive ops).state = .fault f ∧
      (r.drive ops).faults = List.replicate (ops.count .step) f ++ r.faults) ∧
  ∀ (ops : List HostOp) (r : RunRecord), ∃ new : List Fault, (r.drive ops).faults = new ++ r.faults

/-! ### Control flow -/

/-- R101. -/
def Obligations.JumpSetsPcAndNothingElse : Prop :=
  EncodedAs 0xF000#16 0x1000#16 (fun w => .jump (fieldAddr w)) ∧
  (∀ (s : State) (addr : Nat), addr < 4096 →
    Completes (.jump addr) s fun t => t.pc.toNat = addr ∧ OnlyChanges [] s t) ∧
  ∀ s : State, exec (.jump s.pc.toNat) s = .next s

/-- R102, with the slot of decision D11 (log 12): Call with fewer than 16 return addresses held pushes the address
after itself; with 16 it overflows. -/
def Obligations.CallPushesTheNextAddress : Prop :=
  EncodedAs 0xF000#16 0x2000#16 (fun w => .call (fieldAddr w)) ∧
  ∀ (s : State) (addr : Nat), addr < 4096 →
    (s.sp.val < 16 → Completes (.call addr) s fun t =>
      t.pc.toNat = addr ∧ t.sp.val = s.sp.val + 1 ∧
      (∀ k : Fin 16, t.stack[k.val] = if k.val = s.sp.val then s.pc + 2#16 else s.stack[k.val]) ∧
      OnlyChanges [.stack] s t) ∧
    (s.sp.val = 16 → exec (.call addr) s = .fault .stackOverflow)

/-- R103, with the popped slot keeping its value (decision D11, log 12). -/
def Obligations.ReturnPopsTheLastPush : Prop :=
  EncodedAs 0xFFFF#16 0x00EE#16 (fun _ => .ret) ∧
  ∀ s : State,
    (0 < s.sp.val → Completes .ret s fun t =>
      t.sp.val + 1 = s.sp.val ∧ t.stack = s.stack ∧ (∀ k : Fin 16, k.val = t.sp.val → t.pc = s.stack[k.val]) ∧
      OnlyChanges [.stack] s t) ∧
    (s.sp.val = 0 → exec .ret s = .fault .stackUnderflow)

/-- R102, source property S8: a Return that finds the stack as a Call left it restores `pc` to the address after the
Call and `sp` to its value before it. -/
def Obligations.ReturnUndoesCall : Prop :=
  ∀ (s : State) (addr : Nat), s.sp.val < 16 →
    Completes (.call addr) s fun t => ∀ t' : State, t'.sp = t.sp → t'.stack = t.stack →
      Completes .ret t' fun u => u.pc = s.pc + 2#16 ∧ u.sp = s.sp

/-- R104: the register is always `v[0]`, and the sum is not reduced to 12 bits (decision D23, log 16). -/
def Obligations.JumpPlusV0AddsTheFirstRegister : Prop :=
  EncodedAs 0xF000#16 0xB000#16 (fun w => .jumpPlusV0 (fieldAddr w)) ∧
  ∀ (s : State) (addr : Nat), addr < 4096 →
    Completes (.jumpPlusV0 addr) s fun t => t.pc.toNat = addr + (s.reg 0).toNat ∧ OnlyChanges [] s t

/-! ### Registers -/

/-- R110, R130, R175: Move, LoadImm and ReadDelay copy a register, an immediate or the delay timer into `v[x]`. -/
def Obligations.CopiesIntoARegister : Prop :=
  EncodedAs 0xF00F#16 0x8000#16 (fun w => .move (fieldX w) (fieldY w)) ∧
  EncodedAs 0xF000#16 0x6000#16 (fun w => .loadImm (fieldX w) (fieldByte w)) ∧
  EncodedAs 0xF0FF#16 0xF007#16 (fun w => .readDelay (fieldX w)) ∧
  ∀ (s : State) (x y : Reg) (byte : Byte),
    (Completes (.move x y) s fun t =>
      t.reg x = s.reg y ∧ RegsKeptBut [x] s t ∧ t.pc = s.pc + 2#16 ∧ OnlyChanges [.regs] s t) ∧
    (Completes (.loadImm x byte) s fun t =>
      t.reg x = byte ∧ RegsKeptBut [x] s t ∧ t.pc = s.pc + 2#16 ∧ OnlyChanges [.regs] s t) ∧
    (Completes (.readDelay x) s fun t =>
      t.reg x = s.delayTimer ∧ RegsKeptBut [x] s t ∧ t.pc = s.pc + 2#16 ∧ OnlyChanges [.regs] s t)

/-- R111, R112, R113, R131: the bits of Or, And and Xor and the wrapped sum of AddImm go to `v[x]`; no flag is written
(decision D9, log 10). -/
def Obligations.LogicAndAddImmWriteNoFlag : Prop :=
  EncodedAs 0xF00F#16 0x8001#16 (fun w => .orReg (fieldX w) (fieldY w)) ∧
  EncodedAs 0xF00F#16 0x8002#16 (fun w => .andReg (fieldX w) (fieldY w)) ∧
  EncodedAs 0xF00F#16 0x8003#16 (fun w => .xorReg (fieldX w) (fieldY w)) ∧
  EncodedAs 0xF000#16 0x7000#16 (fun w => .addImm (fieldX w) (fieldByte w)) ∧
  ∀ (s : State) (x y : Reg) (byte : Byte),
    (Completes (.orReg x y) s fun t =>
      (∀ k : Nat, k < 8 → (t.reg x).getLsbD k = ((s.reg x).getLsbD k || (s.reg y).getLsbD k)) ∧
      RegsKeptBut [x] s t ∧ t.pc = s.pc + 2#16 ∧ OnlyChanges [.regs] s t) ∧
    (Completes (.andReg x y) s fun t =>
      (∀ k : Nat, k < 8 → (t.reg x).getLsbD k = ((s.reg x).getLsbD k && (s.reg y).getLsbD k)) ∧
      RegsKeptBut [x] s t ∧ t.pc = s.pc + 2#16 ∧ OnlyChanges [.regs] s t) ∧
    (Completes (.xorReg x y) s fun t =>
      (∀ k : Nat, k < 8 → (t.reg x).getLsbD k = ((s.reg x).getLsbD k != (s.reg y).getLsbD k)) ∧
      RegsKeptBut [x] s t ∧ t.pc = s.pc + 2#16 ∧ OnlyChanges [.regs] s t) ∧
    (Completes (.addImm x byte) s fun t =>
      (t.reg x).toNat = ((s.reg x).toNat + byte.toNat) % 256 ∧
      RegsKeptBut [x] s t ∧ t.pc = s.pc + 2#16 ∧ OnlyChanges [.regs] s t)

/-- R114, R115, R117: the wrapped sum or difference goes to `v[x]` and the carry or not-borrow, equality included
(decision D5, log 13), to `v[0xF]`, for every destination other than `v[0xF]` itself; that one is
`FlagSurvivesInTheFlagRegister`. Both operands are the values before the step, also where y is 0xF or x. -/
def Obligations.AddAndSubtractWithFlag : Prop :=
  EncodedAs 0xF00F#16 0x8004#16 (fun w => .addReg (fieldX w) (fieldY w)) ∧
  EncodedAs 0xF00F#16 0x8005#16 (fun w => .subReg (fieldX w) (fieldY w)) ∧
  EncodedAs 0xF00F#16 0x8007#16 (fun w => .subnReg (fieldX w) (fieldY w)) ∧
  ∀ (s : State) (x y : Reg), x ≠ 15 →
    (Completes (.addReg x y) s fun t =>
      (t.reg x).toNat = ((s.reg x).toNat + (s.reg y).toNat) % 256 ∧
      (t.reg 15).toNat = (if 255 < (s.reg x).toNat + (s.reg y).toNat then 1 else 0) ∧
      RegsKeptBut [x, 15] s t ∧ t.pc = s.pc + 2#16 ∧ OnlyChanges [.regs] s t) ∧
    (Completes (.subReg x y) s fun t =>
      (t.reg x).toNat = ((s.reg x).toNat + 256 - (s.reg y).toNat) % 256 ∧
      (t.reg 15).toNat = (if (s.reg y).toNat ≤ (s.reg x).toNat then 1 else 0) ∧
      RegsKeptBut [x, 15] s t ∧ t.pc = s.pc + 2#16 ∧ OnlyChanges [.regs] s t) ∧
    (Completes (.subnReg x y) s fun t =>
      (t.reg x).toNat = ((s.reg y).toNat + 256 - (s.reg x).toNat) % 256 ∧
      (t.reg 15).toNat = (if (s.reg x).toNat ≤ (s.reg y).toNat then 1 else 0) ∧
      RegsKeptBut [x, 15] s t ∧ t.pc = s.pc + 2#16 ∧ OnlyChanges [.regs] s t)

/-- R116, R118: a logical shift of `v[x]` by one, whatever the `y` nibble is, and the bit shifted out in `v[0xF]`, for
every destination other than `v[0xF]` itself; that one is `FlagSurvivesInTheFlagRegister`. -/
def Obligations.ShiftsWithTheBitShiftedOut : Prop :=
  EncodedAs 0xF00F#16 0x8006#16 (fun w => .shr (fieldX w)) ∧
  EncodedAs 0xF00F#16 0x800E#16 (fun w => .shl (fieldX w)) ∧
  ∀ (s : State) (x : Reg), x ≠ 15 →
    (Completes (.shr x) s fun t =>
      (t.reg x).toNat = (s.reg x).toNat / 2 ∧ (t.reg 15).toNat = (s.reg x).toNat % 2 ∧
      RegsKeptBut [x, 15] s t ∧ t.pc = s.pc + 2#16 ∧ OnlyChanges [.regs] s t) ∧
    (Completes (.shl x) s fun t =>
      (t.reg x).toNat = (s.reg x).toNat * 2 % 256 ∧ (t.reg 15).toNat = (s.reg x).toNat / 128 ∧
      RegsKeptBut [x, 15] s t ∧ t.pc = s.pc + 2#16 ∧ OnlyChanges [.regs] s t)

/-- The five flag-writing instructions with destination `v[0xF]`, where the parameter VF_ALIAS_ORDER is flag_last, as
the spec decides it for this hardware (R5, R31, 92_eei_decisions.md D4, log 5): the flag survives and the result is
lost. -/
def Obligations.FlagSurvivesInTheFlagRegister : Prop :=
  ∀ (s : State) (y : Reg), s.params.vfAliasOrder = .flagLast →
    (Completes (.addReg 15 y) s fun t =>
      (t.reg 15).toNat = (if 255 < (s.reg 15).toNat + (s.reg y).toNat then 1 else 0) ∧
      RegsKeptBut [15] s t ∧ t.pc = s.pc + 2#16 ∧ OnlyChanges [.regs] s t) ∧
    (Completes (.subReg 15 y) s fun t =>
      (t.reg 15).toNat = (if (s.reg y).toNat ≤ (s.reg 15).toNat then 1 else 0) ∧
      RegsKeptBut [15] s t ∧ t.pc = s.pc + 2#16 ∧ OnlyChanges [.regs] s t) ∧
    (Completes (.subnReg 15 y) s fun t =>
      (t.reg 15).toNat = (if (s.reg 15).toNat ≤ (s.reg y).toNat then 1 else 0) ∧
      RegsKeptBut [15] s t ∧ t.pc = s.pc + 2#16 ∧ OnlyChanges [.regs] s t) ∧
    (Completes (.shr 15) s fun t =>
      (t.reg 15).toNat = (s.reg 15).toNat % 2 ∧
      RegsKeptBut [15] s t ∧ t.pc = s.pc + 2#16 ∧ OnlyChanges [.regs] s t) ∧
    (Completes (.shl 15) s fun t =>
      (t.reg 15).toNat = (s.reg 15).toNat / 128 ∧
      RegsKeptBut [15] s t ∧ t.pc = s.pc + 2#16 ∧ OnlyChanges [.regs] s t)

/-- The same five where the parameter VF_ALIAS_ORDER is result_last (R5, R31): the result survives and the flag is
lost. -/
def Obligations.ResultSurvivesWhenWrittenLast : Prop :=
  ∀ (s : State) (y : Reg), s.params.vfAliasOrder = .resultLast →
    (Completes (.addReg 15 y) s fun t =>
      (t.reg 15).toNat = ((s.reg 15).toNat + (s.reg y).toNat) % 256 ∧
      RegsKeptBut [15] s t ∧ t.pc = s.pc + 2#16 ∧ OnlyChanges [.regs] s t) ∧
    (Completes (.subReg 15 y) s fun t =>
      (t.reg 15).toNat = ((s.reg 15).toNat + 256 - (s.reg y).toNat) % 256 ∧
      RegsKeptBut [15] s t ∧ t.pc = s.pc + 2#16 ∧ OnlyChanges [.regs] s t) ∧
    (Completes (.subnReg 15 y) s fun t =>
      (t.reg 15).toNat = ((s.reg y).toNat + 256 - (s.reg 15).toNat) % 256 ∧
      RegsKeptBut [15] s t ∧ t.pc = s.pc + 2#16 ∧ OnlyChanges [.regs] s t) ∧
    (Completes (.shr 15) s fun t =>
      (t.reg 15).toNat = (s.reg 15).toNat / 2 ∧
      RegsKeptBut [15] s t ∧ t.pc = s.pc + 2#16 ∧ OnlyChanges [.regs] s t) ∧
    (Completes (.shl 15) s fun t =>
      (t.reg 15).toNat = (s.reg 15).toNat * 2 % 256 ∧
      RegsKeptBut [15] s t ∧ t.pc = s.pc + 2#16 ∧ OnlyChanges [.regs] s t)

/-- R12, with decision D9 (log 10): the six flag writers leave 0x00 or 0x01 in `v[0xF]`, and every other instruction
leaves `v[0xF]` alone unless it names it as its destination or loads it. (With destination `v[0xF]` and VF_ALIAS_ORDER
at result_last a result stands there instead, `ResultSurvivesWhenWrittenLast`; this hardware has flag_last, D4, log 5.) -/
def Obligations.OnlyTheSixWriteTheFlag : Prop :=
  ∀ (i : Instr) (s t : State), exec i s = .next t →
    ((i.op = 13 ∨ i.op = 14 ∨ i.op = 15 ∨ i.op = 16 ∨ i.op = 17 ∨ i.op = 22) →
      (s.params.vfAliasOrder = .flagLast ∨ (15 : Reg) ∉ (controls i).vwr) →
      t.reg 15 = 0x00#8 ∨ t.reg 15 = 0x01#8) ∧
    (¬ (i.op = 13 ∨ i.op = 14 ∨ i.op = 15 ∨ i.op = 16 ∨ i.op = 17 ∨ i.op = 22) → (15 : Reg) ∉ (controls i).vwr →
      t.reg 15 = s.reg 15)

/-! ### Skips -/

/-- R132, R133, R134, R135: a skip adds 4 to `pc` when its comparison holds and 2 when it does not, and changes nothing
else; the words 5xy1 to 5xyF and 9xy1 to 9xyF are illegal. -/
def Obligations.CompareAndSkip : Prop :=
  EncodedAs 0xF000#16 0x3000#16 (fun w => .skipEqImm (fieldX w) (fieldByte w)) ∧
  EncodedAs 0xF000#16 0x4000#16 (fun w => .skipNeqImm (fieldX w) (fieldByte w)) ∧
  EncodedAs 0xF00F#16 0x5000#16 (fun w => .skipEqReg (fieldX w) (fieldY w)) ∧
  EncodedAs 0xF00F#16 0x9000#16 (fun w => .skipNeqReg (fieldX w) (fieldY w)) ∧
  (∀ w : Word, (w.toNat / 4096 = 5 ∨ w.toNat / 4096 = 9) → w.toNat % 16 ≠ 0 → decode w = .unknown w) ∧
  ∀ (s : State) (x y : Reg) (byte : Byte),
    (Completes (.skipEqImm x byte) s fun t =>
      t.pc = (if s.reg x = byte then s.pc + 4#16 else s.pc + 2#16) ∧ OnlyChanges [] s t) ∧
    (Completes (.skipNeqImm x byte) s fun t =>
      t.pc = (if s.reg x = byte then s.pc + 2#16 else s.pc + 4#16) ∧ OnlyChanges [] s t) ∧
    (Completes (.skipEqReg x y) s fun t =>
      t.pc = (if s.reg x = s.reg y then s.pc + 4#16 else s.pc + 2#16) ∧ OnlyChanges [] s t) ∧
    (Completes (.skipNeqReg x y) s fun t =>
      t.pc = (if s.reg x = s.reg y then s.pc + 2#16 else s.pc + 4#16) ∧ OnlyChanges [] s t)

/-- R165, R166: SkipIfKeyDown skips exactly when the whole byte `v[x]` names a pressed key, and SkipIfKeyUp exactly when
it does not; a number of 16 or more names no key (decision D10, log 11). -/
def Obligations.KeypadSkips : Prop :=
  EncodedAs 0xF0FF#16 0xE09E#16 (fun w => .skipIfKeyDown (fieldX w)) ∧
  EncodedAs 0xF0FF#16 0xE0A1#16 (fun w => .skipIfKeyUp (fieldX w)) ∧
  ∀ (s : State) (x : Reg),
    ((∃ k : Fin 16, k.val = (s.reg x).toNat ∧ s.keys[k.val] = true) →
      (Completes (.skipIfKeyDown x) s fun t => t.pc = s.pc + 4#16 ∧ OnlyChanges [] s t) ∧
      (Completes (.skipIfKeyUp x) s fun t => t.pc = s.pc + 2#16 ∧ OnlyChanges [] s t)) ∧
    ((∀ k : Fin 16, k.val = (s.reg x).toNat → s.keys[k.val] = false) →
      (Completes (.skipIfKeyDown x) s fun t => t.pc = s.pc + 2#16 ∧ OnlyChanges [] s t) ∧
      (Completes (.skipIfKeyUp x) s fun t => t.pc = s.pc + 4#16 ∧ OnlyChanges [] s t))

/-- R167: with no key pressed WaitKey is a successful step that changes nothing; otherwise the lowest pressed key goes
to `v[x]` and the program goes on. -/
def Obligations.WaitKeyRepeatsUntilAKey : Prop :=
  EncodedAs 0xF0FF#16 0xF00A#16 (fun w => .waitKey (fieldX w)) ∧
  ∀ (s : State) (x : Reg),
    ((∀ k : Fin 16, s.keys[k.val] = false) → exec (.waitKey x) s = .next s) ∧
    (∀ k : Fin 16, s.keys[k.val] = true → (∀ j : Fin 16, j.val < k.val → s.keys[j.val] = false) →
      Completes (.waitKey x) s fun t =>
        (t.reg x).toNat = k.val ∧ RegsKeptBut [x] s t ∧ t.pc = s.pc + 2#16 ∧ OnlyChanges [.regs] s t)

/-! ### Index register, timers, random -/

/-- R140. -/
def Obligations.SetIndexLoadsTheAddress : Prop :=
  EncodedAs 0xF000#16 0xA000#16 (fun w => .setIndex (fieldAddr w)) ∧
  ∀ (s : State) (addr : Nat), addr < 4096 →
    Completes (.setIndex addr) s fun t =>
      t.i.toNat = addr ∧ t.pc = s.pc + 2#16 ∧ OnlyChanges [.index] s t

/-- R141, R142: AddIndex wraps at 16 bits and IndexToGlyph multiplies the whole byte by five; neither masks `i`
(decision D6, log 8), reduces the digit (D21, log 15) or writes a flag (D9, log 10). -/
def Obligations.IndexArithmetic : Prop :=
  EncodedAs 0xF0FF#16 0xF01E#16 (fun w => .addIndex (fieldX w)) ∧
  EncodedAs 0xF0FF#16 0xF029#16 (fun w => .indexToGlyph (fieldX w)) ∧
  ∀ (s : State) (x : Reg),
    (Completes (.addIndex x) s fun t =>
      t.i.toNat = (s.i.toNat + (s.reg x).toNat) % 65536 ∧ t.pc = s.pc + 2#16 ∧ OnlyChanges [.index] s t) ∧
    (Completes (.indexToGlyph x) s fun t =>
      t.i.toNat = 5 * (s.reg x).toNat ∧ t.pc = s.pc + 2#16 ∧ OnlyChanges [.index] s t)

/-- R176, R177. -/
def Obligations.TimerWrites : Prop :=
  EncodedAs 0xF0FF#16 0xF015#16 (fun w => .writeDelay (fieldX w)) ∧
  EncodedAs 0xF0FF#16 0xF018#16 (fun w => .writeSound (fieldX w)) ∧
  ∀ (s : State) (x : Reg),
    (Completes (.writeDelay x) s fun t =>
      t.delayTimer = s.reg x ∧ t.pc = s.pc + 2#16 ∧ OnlyChanges [.delayTimer] s t) ∧
    (Completes (.writeSound x) s fun t =>
      t.soundTimer = s.reg x ∧ t.pc = s.pc + 2#16 ∧ OnlyChanges [.soundTimer] s t)

/-- R150, with the random source of this model (decision D12, log 2): Random completes in every state; for every byte
the source can deliver, `v[x]` is that byte masked; with nothing injected it is the free value masked; one draw is
consumed, also with mask 0. -/
def Obligations.RandomMasksOneDraw : Prop :=
  EncodedAs 0xF000#16 0xC000#16 (fun w => .random (fieldX w) (fieldByte w)) ∧
  ∀ (s : State) (x : Reg) (byte : Byte),
    Completes (.random x byte) s fun t =>
      (∀ (r : Byte) (later : List Byte), s.rnd = r :: later → t.reg x = r &&& byte ∧ t.rnd = later) ∧
      (s.rnd = [] → t.reg x = Config.randomByte s.draws &&& byte ∧ t.rnd = []) ∧
      t.draws = s.draws + 1 ∧ RegsKeptBut [x] s t ∧ t.pc = s.pc + 2#16 ∧ OnlyChanges [.regs, .randomPort] s t

/-- R226: no instruction but Random reads the random port or takes a byte from it: what the port holds makes no
difference to any other instruction, and stays. -/
def Obligations.OnlyRandomUsesTheRandomPort : Prop :=
  ∀ (i : Instr) (s : State) (q : List Byte) (d : Nat), i.op ≠ 21 →
    exec i { s with rnd := q, draws := d } = mapNext (fun t => { t with rnd := q, draws := d }) (exec i s)

/-! ### Display -/

/-- R156. -/
def Obligations.ClearScreenTurnsEveryPixelOff : Prop :=
  EncodedAs 0xFFFF#16 0x00E0#16 (fun _ => .clearScreen) ∧
  ∀ s : State, Completes .clearScreen s fun t =>
    (∀ (y : Fin 32) (x : Fin 64), t.fb.pixel y x = false) ∧ t.pc = s.pc + 2#16 ∧ OnlyChanges [.display] s t

/-- R155: Draw flips exactly the pixels the sprite covers, with wrap on both axes, and `v[0xF]` is 1 exactly when one of
them was lit before, else 0. The coordinates are the registers' values before the step, also for x or y = 0xF (decision
D4, log 5); a height of 0 draws nothing wherever `i` points. -/
def Obligations.DrawFlipsTheSpriteAndReportsCollision : Prop :=
  EncodedAs 0xF000#16 0xD000#16 (fun w => .draw (fieldX w) (fieldY w) (fieldN w)) ∧
  ∀ (s : State) (x y : Reg) (n : Nat), n < 16 → (n = 0 ∨ s.i.toNat + n ≤ 4096) →
    Completes (.draw x y n) s fun t =>
      (∀ (py : Fin 32) (px : Fin 64), t.fb.pixel py px = true ↔
        (s.fb.pixel py px = true ↔ ¬ SpriteCovers s (s.reg x).toNat (s.reg y).toNat n py px)) ∧
      (t.reg 15 = 0x01#8 ∨ t.reg 15 = 0x00#8) ∧
      (t.reg 15 = 0x01#8 ↔ ∃ (py : Fin 32) (px : Fin 64),
        SpriteCovers s (s.reg x).toNat (s.reg y).toNat n py px ∧ s.fb.pixel py px = true) ∧
      RegsKeptBut [15] s t ∧ t.pc = s.pc + 2#16 ∧ OnlyChanges [.regs, .display] s t

/-- R155 corner case (h), source property S6: drawing the same sprite at the same place again restores the framebuffer
exactly, and sets the collision flag if the first draw turned any pixel on. The second Draw runs in any state that has
the first one's framebuffer, RAM and index and finds the same coordinates. -/
def Obligations.DrawingTwiceRestoresTheFramebuffer : Prop :=
  ∀ (s : State) (x y : Reg) (n : Nat), n < 16 → (n = 0 ∨ s.i.toNat + n ≤ 4096) →
    Completes (.draw x y n) s fun t => ∀ t' : State, t'.fb = t.fb → Part.same .ram t t' → t'.i = t.i →
      t'.reg x = s.reg x → t'.reg y = s.reg y →
        Completes (.draw x y n) t' fun u => u.fb = s.fb ∧
          ((∃ (py : Fin 32) (px : Fin 64), s.fb.pixel py px = false ∧ t.fb.pixel py px = true) → u.reg 15 = 0x01#8)

/-! ### Memory block -/

/-- R180, R184: the three decimal digits, hundreds first, at `i`, `i + 1`, `i + 2`; otherwise MemoryFault, and which
address it carries is the spec's decision D3 (R204, log 7). -/
def Obligations.StoreBCDWritesTheDigits : Prop :=
  EncodedAs 0xF0FF#16 0xF033#16 (fun w => .storeBCD (fieldX w)) ∧
  ∀ (s : State) (x : Reg),
    (s.i.toNat + 3 ≤ 4096 → Completes (.storeBCD x) s fun t =>
      (t.byteAt s.i.toNat).toNat = (s.reg x).toNat / 100 ∧
      (t.byteAt (s.i.toNat + 1)).toNat = (s.reg x).toNat / 10 % 10 ∧
      (t.byteAt (s.i.toNat + 2)).toNat = (s.reg x).toNat % 10 ∧
      100 * (t.byteAt s.i.toNat).toNat + 10 * (t.byteAt (s.i.toNat + 1)).toNat + (t.byteAt (s.i.toNat + 2)).toNat
        = (s.reg x).toNat ∧
      RamKeptOutside s.i.toNat 3 s t ∧ t.pc = s.pc + 2#16 ∧ OnlyChanges [.ram] s t) ∧
    (4096 < s.i.toNat + 3 → exec (.storeBCD x) s = .fault (.memoryFault (max s.i.toNat 4096)))

/-- R181: `v[0]` to `v[x]` at `i` upward; `i` is unchanged (decision D8, log 9). -/
def Obligations.StoreRegsWritesTheRegisters : Prop :=
  EncodedAs 0xF0FF#16 0xF055#16 (fun w => .storeRegs (fieldX w)) ∧
  ∀ (s : State) (x : Reg), s.i.toNat + x.val < 4096 →
    Completes (.storeRegs x) s fun t =>
      (∀ k : Reg, k.val ≤ x.val → t.byteAt (s.i.toNat + k.val) = s.reg k) ∧
      RamKeptOutside s.i.toNat (x.val + 1) s t ∧ t.pc = s.pc + 2#16 ∧ OnlyChanges [.ram] s t

/-- R182: `v[0]` to `v[x]` from `i` upward, the registers above `v[x]` unchanged; `i` is unchanged (decision D8,
log 9). -/
def Obligations.LoadRegsReadsTheRegisters : Prop :=
  EncodedAs 0xF0FF#16 0xF065#16 (fun w => .loadRegs (fieldX w)) ∧
  ∀ (s : State) (x : Reg), s.i.toNat + x.val < 4096 →
    Completes (.loadRegs x) s fun t =>
      (∀ k : Reg, t.reg k = if k.val ≤ x.val then s.byteAt (s.i.toNat + k.val) else s.reg k) ∧
      t.pc = s.pc + 2#16 ∧ OnlyChanges [.regs] s t

/-- R184: when any address the instruction would touch is 4096 or more, it faults with the lowest such address (decision
D3, log 7). (That the fault leaves the machine where it was is `FaultedStepFaultsUntilLoadOrReset`.) -/
def Obligations.BlockAccessFaultsAtTheLowestAddress : Prop :=
  ∀ (s : State) (x : Reg),
    ((∃ k : Nat, k ≤ 2 ∧ 4096 ≤ s.i.toNat + k) →
      exec (.storeBCD x) s = .fault (.memoryFault (max s.i.toNat 4096))) ∧
    ((∃ k : Nat, k ≤ x.val ∧ 4096 ≤ s.i.toNat + k) →
      exec (.storeRegs x) s = .fault (.memoryFault (max s.i.toNat 4096)) ∧
      exec (.loadRegs x) s = .fault (.memoryFault (max s.i.toNat 4096)))

/-- R182, corner case: LoadRegs(x) after StoreRegs(x) with the same `i` restores `v[0]` to `v[x]`, whatever the
registers held in between (decision D8, log 9). -/
def Obligations.LoadRegsRestoresWhatStoreRegsSaved : Prop :=
  ∀ (s : State) (x : Reg), s.i.toNat + x.val < 4096 →
    Completes (.storeRegs x) s fun t => ∀ t' : State, Part.same .ram t t' → t'.i = s.i →
      Completes (.loadRegs x) t' fun u =>
        ∀ k : Reg, u.reg k = if k.val ≤ x.val then s.reg k else t'.reg k

/-- 20_memory.md R44, R53: two bytes stored by StoreRegs and then fetched are an instruction word with `v[0]` as its
high byte; the fetch sees the store at once, also over the program's own code and the fontset (R47). -/
def Obligations.StoredBytesAreFetchedAtOnce : Prop :=
  ∀ (s : State) (x : Reg), 1 ≤ x.val → s.i.toNat + x.val < 4096 →
    Completes (.storeRegs x) s fun t => ∀ u : State, Part.same .ram t u → u.pc = s.i →
      u.fetch = .word (wordOfBytes (s.reg 0) (s.reg 1))

/-! ### Whole-machine rules -/

/-- 30_encoding.md R70, 10_state.md R13 to R18: an instruction changes only what its row of the control table names.
Keys, the host's schedule and the parameters are changed by no instruction. -/
def Obligations.ControlTableBoundsEveryEffect : Prop :=
  ∀ (i : Instr) (s t : State), exec i s = .next t →
    RegsKeptBut (controls i).regsWritten s t ∧
    ((controls i).indexWrite = false → Part.same .index s t) ∧
    ((controls i).stk = .idle → Part.same .stack s t) ∧
    RamKeptOutside s.i.toNat (controls i).ramWrite s t ∧
    ((controls i).fb = .idle → Part.same .display s t) ∧
    ((controls i).tmr ≠ .writeDelay → Part.same .delayTimer s t) ∧
    ((controls i).tmr ≠ .writeSound → Part.same .soundTimer s t) ∧
    ((controls i).rnd = false → Part.same .randomPort s t) ∧
    Part.same .keys s t ∧ Part.same .schedule s t ∧ Part.same .params s t

/-- 10_state.md R32, 30_encoding.md R70: the control table's `pcsel` decides the next `pc`. -/
def Obligations.PcSourceDecidesTheNextPc : Prop :=
  ∀ (i : Instr) (s t : State), exec i s = .next t →
    ((controls i).pcsel = .seq → t.pc = s.pc + 2#16) ∧
    ((controls i).pcsel = .skip → t.pc = s.pc + 2#16 ∨ t.pc = s.pc + 4#16) ∧
    ((controls i).pcsel = .hold → t.pc = s.pc + 2#16 ∨ t = s) ∧
    ((controls i).pcsel = .pop → ∃ k : Fin 16, k.val + 1 = s.sp.val ∧ t.pc = s.stack[k.val]) ∧
    ((controls i).pcsel = .addr → ∃ a : Nat, i.operands = [a] ∧ t.pc = BitVec.ofNat 16 a) ∧
    ((controls i).pcsel = .addrPlusV0 → ∃ a : Nat, i.operands = [a] ∧ t.pc = BitVec.ofNat 16 (a + (s.reg 0).toNat))

/-- 10_state.md R16: no instruction reads `sound_timer`: its value makes no difference to any instruction, and only
WriteSound replaces it. -/
def Obligations.NoInstructionReadsTheSoundTimer : Prop :=
  ∀ (i : Instr) (s : State) (b : Byte),
    exec i { s with soundTimer := b } =
      mapNext (fun t => if i.op = 28 then t else { t with soundTimer := b }) (exec i s)

/-- 10_state.md R18: a program observes the framebuffer only through Draw: to every other instruction its contents make
no difference, and only ClearScreen and Draw replace them. -/
def Obligations.OnlyDrawObservesTheFramebuffer : Prop :=
  ∀ (i : Instr) (s : State) (fb : Framebuffer), i.op ≠ 22 →
    exec i { s with fb := fb } = mapNext (fun t => if i.op = 0 then t else { t with fb := fb }) (exec i s)

/-- 20_memory.md R48, 42_immediate_compare.md R136: to the instructions that the control table gives no RAM access, the
contents of RAM make no difference; so the word a taken skip passes over is not looked at. -/
def Obligations.OthersDoNotLookAtRam : Prop :=
  ∀ (i : Instr) (s : State) (m : Memory), (controls i).xfault ≠ .memoryFault →
    exec i { s with mem := m } = mapNext (fun t => { t with mem := m }) (exec i s)

/-- R255: at a Jump to its own address, and at a WaitKey with no key pressed, the machine stays as it is for any number
of steps. -/
def Obligations.FixedPointsOfStep : Prop :=
  ∀ s : State, s.schedule = [] → (atSelfJump s = true ∨ atIdleWaitKey s = true) →
    ∀ n : Nat, Host.Core.run core n s = .next s

/-- The canonical form of RAM makes equal RAM equal data: two canonical lists that read the same at every address are
the same list, whatever FONTSET is (the model's own rule, log 18). -/
def Obligations.EqualRamIsEqualData : Prop :=
  ∀ (font : Fontset) (m m' : Memory), Memory.wf font m → Memory.wf font m' →
    (∀ a : Nat, Memory.get font m a = Memory.get font m' a) → m = m'

/-- 10_state.md R33 and the canonical form of RAM (log 18): from every state that meets the invariant, whatever the host
has scheduled, a step gives a state that meets it: `pc` never exceeds 0x10FE, every stack entry is at most 4096. -/
def Obligations.StepKeepsTheInvariant : Prop :=
  ∀ s t : State, Inv s → step s = .next t → Inv t

/-- The state after reset meets the invariant, whatever the parameters are. -/
def Obligations.ResetMeetsTheInvariant : Prop := Inv State.reset ∧ ∀ p : Parameters, Inv (State.resetWith p)

/-- So every state that any host's operations reach from reset meets the invariant, whatever the parameters are; the
operations are those the start state has scheduled (log 1), and the random bytes those it has injected (log 2). That the
invariant speaks of RAM's canonical form is the model's own choice (log 18). -/
def Obligations.ReachableStatesMeetTheInvariant : Prop :=
  ∀ (p : Parameters) (ops : List HostOp) (bytes : List Byte) (draws : Nat) (t : State),
    Reaches { State.resetWith p with schedule := ops, rnd := bytes, draws := draws } t → Inv t

/-- R5: no step changes the parameters, whatever the host has scheduled, a `Reset` or a `Load` included; they stand in the
state because they are an argument of the machine (log 29). -/
def Obligations.NoStepChangesTheParameters : Prop := ∀ s t : State, step s = .next t → Part.same .params s t

/-! ### Host operations -/

/-- R220: a Tick takes one from each timer that is not zero and touches nothing else; so any number of ticks takes that
number from each timer, down to zero and no further. -/
def Obligations.TickCountsBothTimersDown : Prop :=
  (∀ s : State, Performs .tick s fun t =>
    t.delayTimer.toNat = s.delayTimer.toNat - 1 ∧ t.soundTimer.toNat = s.soundTimer.toNat - 1 ∧ t.pc = s.pc ∧
    OnlyChanges [.delayTimer, .soundTimer] s t) ∧
  ∀ (n : Nat) (s : State),
    (Nat.repeat hostTick n s).delayTimer.toNat = s.delayTimer.toNat - n ∧
    (Nat.repeat hostTick n s).soundTimer.toNat = s.soundTimer.toNat - n

/-- R223: SetKey writes the one key it names; an index of 16 or more is ignored. No other operation but Reset writes
a key. -/
def Obligations.SetKeyWritesOneKey : Prop :=
  (∀ (s : State) (index : Nat) (pressed : Bool), Performs (.setKey index pressed) s fun t =>
    (∀ k : Fin 16, t.keys[k.val] = if k.val = index then pressed else s.keys[k.val]) ∧ t.pc = s.pc ∧
    OnlyChanges [.keys] s t) ∧
  ∀ (op : HostOp) (s t : State), (∀ (index : Nat) (pressed : Bool), op ≠ .setKey index pressed) → op ≠ .reset →
    perform op s = .next t → t.keys = s.keys

/-- R245, with decision D14 (log 14): an image of at most 3584 bytes lands from 0x200 upward and nothing else changes;
a longer one is OversizeImage. -/
def Obligations.LoadInstallsTheImage : Prop :=
  ∀ (s : State) (image : List Byte),
    (image.length ≤ 3584 → Performs (.load image) s fun t =>
      (∀ k : Nat, k < image.length → some (t.byteAt (0x200 + k)) = image[k]?) ∧
      RamKeptOutside 0x200 image.length s t ∧ t.pc = s.pc ∧ OnlyChanges [.ram] s t) ∧
    (3584 < image.length → perform (.load image) s = .fault .oversizeImage)

/-- R246: after Reset and Load, the first Step runs the first word of the image. -/
def Obligations.ExecutionBeginsWithTheImage : Prop :=
  ∀ (s : State) (image rest : List Byte) (i : Instr), s.schedule = [] → image.length ≤ 3584 →
    decodeBytes image = .instr i rest →
    Performs .reset s fun t => Performs (.load image) t fun u => u.pc = 0x200#16 ∧ step u = exec i u

/-- R224, R225: the two observations complete and change nothing; the framebuffer is answered whole, and in the flat,
row-major view pixel (y, x) is element `y * 64 + x` of 2048 (10_state.md R18). -/
def Obligations.ObservationsChangeNothing : Prop :=
  ∀ s : State,
    perform .readFramebuffer s = .next s ∧ perform .readTimers s = .next s ∧
    framebuffer s = s.fb ∧ timerRead s = (s.delayTimer, s.soundTimer) ∧ (framebufferFlat s).length = 2048 ∧
    ∀ (y : Fin 32) (x : Fin 64), (framebufferFlat s)[y.val * 64 + x.val]? = some (s.fb.pixel y x)
end

