-- ==== Sys2Proof/Laws/Decode.lean ====
section
/-! SUPPORT. The laws of the decoder's fields: each field as division and remainder of the word's number, the fields of
an encoded word, the two bytes of a word, and what a masked comparison says of the fields. -/

namespace Sys2Proof

/-! ### Fields as numbers -/

theorem fieldN1_toNat (w : Word) : (fieldN1 w).toNat = w.toNat / 4096 := by
  have := w.isLt
  simp only [fieldN1, BitVec.extractLsb'_toNat, Nat.shiftRight_eq_div_pow]
  omega

theorem fieldN4_toNat (w : Word) : (fieldN4 w).toNat = w.toNat % 16 := by
  simp [fieldN4, BitVec.extractLsb'_toNat]

theorem fieldX_val (w : Word) : (fieldX w).val = w.toNat / 256 % 16 := by
  show (w.extractLsb' 8 4).toNat = _
  simp [BitVec.extractLsb'_toNat, Nat.shiftRight_eq_div_pow]

theorem fieldY_val (w : Word) : (fieldY w).val = w.toNat / 16 % 16 := by
  show (w.extractLsb' 4 4).toNat = _
  simp [BitVec.extractLsb'_toNat, Nat.shiftRight_eq_div_pow]

theorem fieldByte_toNat (w : Word) : (fieldByte w).toNat = w.toNat % 256 := by
  simp [fieldByte, BitVec.extractLsb'_toNat]

theorem fieldAddr_eq (w : Word) : fieldAddr w = w.toNat % 4096 := by
  simp [fieldAddr, BitVec.extractLsb'_toNat]

theorem fieldN_eq (w : Word) : fieldN w = w.toNat % 16 := fieldN4_toNat w

theorem fieldAddr_lt (w : Word) : fieldAddr w < 4096 := by rw [fieldAddr_eq]; omega

theorem fieldN_lt (w : Word) : fieldN w < 16 := by rw [fieldN_eq]; omega

/-! ### Fields of an encoded word -/

theorem regNibble_toNat (x : Reg) : (regNibble x).toNat = x.val := by
  have := x.isLt
  simp only [regNibble, BitVec.toNat_ofNat]
  omega

theorem wordA_toNat (n1 : BitVec 4) (addr : Nat) : (wordA n1 addr).toNat = n1.toNat * 4096 + addr % 4096 := by
  have h := Nat.mod_lt addr (show 0 < 2 ^ 12 by decide)
  rw [wordA, BitVec.toNat_append, BitVec.toNat_ofNat, ← Nat.shiftLeft_add_eq_or_of_lt h]
  exact congrArg (· + addr % 4096) (Nat.shiftLeft_eq n1.toNat 12)

theorem wordXB_toNat (n1 : BitVec 4) (x : Reg) (byte : Byte) :
    (wordXB n1 x byte).toNat = n1.toNat * 4096 + x.val * 256 + byte.toNat := by
  have h := byte.isLt
  have h' := (regNibble x).isLt
  rw [wordXB, BitVec.toNat_append, BitVec.toNat_append, ← Nat.shiftLeft_add_eq_or_of_lt h',
    ← Nat.shiftLeft_add_eq_or_of_lt h, regNibble_toNat, Nat.shiftLeft_eq, Nat.shiftLeft_eq]
  omega

theorem wordXY_toNat (n1 : BitVec 4) (x : Reg) (y n4 : BitVec 4) :
    (wordXY n1 x y n4).toNat = n1.toNat * 4096 + x.val * 256 + y.toNat * 16 + n4.toNat := by
  have h := n4.isLt
  have h' := y.isLt
  have h'' := (regNibble x).isLt
  rw [wordXY, BitVec.toNat_append, BitVec.toNat_append, BitVec.toNat_append, ← Nat.shiftLeft_add_eq_or_of_lt h'',
    ← Nat.shiftLeft_add_eq_or_of_lt h', ← Nat.shiftLeft_add_eq_or_of_lt h, regNibble_toNat, Nat.shiftLeft_eq,
    Nat.shiftLeft_eq, Nat.shiftLeft_eq]
  omega

@[simp] theorem fieldN1_wordA (n1 : BitVec 4) (addr : Nat) : fieldN1 (wordA n1 addr) = n1 := by
  apply BitVec.eq_of_toNat_eq; rw [fieldN1_toNat, wordA_toNat]; omega

theorem fieldAddr_wordA (n1 : BitVec 4) {addr : Nat} (h : addr < 4096) : fieldAddr (wordA n1 addr) = addr := by
  rw [fieldAddr_eq, wordA_toNat]; omega

@[simp] theorem fieldN1_wordXB (n1 : BitVec 4) (x : Reg) (byte : Byte) : fieldN1 (wordXB n1 x byte) = n1 := by
  have := byte.isLt
  apply BitVec.eq_of_toNat_eq; rw [fieldN1_toNat, wordXB_toNat]; omega

@[simp] theorem fieldX_wordXB (n1 : BitVec 4) (x : Reg) (byte : Byte) : fieldX (wordXB n1 x byte) = x := by
  have := byte.isLt
  apply Fin.ext; rw [fieldX_val, wordXB_toNat]; omega

@[simp] theorem fieldByte_wordXB (n1 : BitVec 4) (x : Reg) (byte : Byte) : fieldByte (wordXB n1 x byte) = byte := by
  have := byte.isLt
  apply BitVec.eq_of_toNat_eq; rw [fieldByte_toNat, wordXB_toNat]; omega

@[simp] theorem fieldN1_wordXY (n1 : BitVec 4) (x : Reg) (y n4 : BitVec 4) : fieldN1 (wordXY n1 x y n4) = n1 := by
  have := y.isLt; have := n4.isLt
  apply BitVec.eq_of_toNat_eq; rw [fieldN1_toNat, wordXY_toNat]; omega

@[simp] theorem fieldX_wordXY (n1 : BitVec 4) (x : Reg) (y n4 : BitVec 4) : fieldX (wordXY n1 x y n4) = x := by
  have := y.isLt; have := n4.isLt
  apply Fin.ext; rw [fieldX_val, wordXY_toNat]; omega

@[simp] theorem fieldY_wordXY (n1 : BitVec 4) (x y : Reg) (n4 : BitVec 4) :
    fieldY (wordXY n1 x (regNibble y) n4) = y := by
  have := n4.isLt
  apply Fin.ext; rw [fieldY_val, wordXY_toNat, regNibble_toNat]; omega

@[simp] theorem fieldN4_wordXY (n1 : BitVec 4) (x : Reg) (y n4 : BitVec 4) : fieldN4 (wordXY n1 x y n4) = n4 := by
  have := n4.isLt
  apply BitVec.eq_of_toNat_eq; rw [fieldN4_toNat, wordXY_toNat]; omega

theorem fieldN_wordXY (n1 : BitVec 4) (x : Reg) (y : BitVec 4) {n : Nat} (h : n < 16) :
    fieldN (wordXY n1 x y (BitVec.ofNat 4 n)) = n := by
  rw [fieldN, fieldN4_wordXY, BitVec.toNat_ofNat]; omega

/-! ### The two bytes of a word -/

theorem highByte_toNat (w : Word) : (highByte w).toNat = w.toNat / 256 := by
  have := w.isLt
  simp only [highByte, BitVec.extractLsb'_toNat, Nat.shiftRight_eq_div_pow]
  omega

theorem lowByte_toNat (w : Word) : (lowByte w).toNat = w.toNat % 256 := by
  simp [lowByte, BitVec.extractLsb'_toNat]

theorem wordOfBytes_toNat (hi lo : Byte) : (wordOfBytes hi lo).toNat = hi.toNat * 256 + lo.toNat := by
  rw [wordOfBytes, BitVec.toNat_append, ← Nat.shiftLeft_add_eq_or_of_lt lo.isLt, Nat.shiftLeft_eq]

@[simp] theorem wordOfBytes_bytes (w : Word) : wordOfBytes (highByte w) (lowByte w) = w := by
  apply BitVec.eq_of_toNat_eq
  rw [wordOfBytes_toNat, highByte_toNat, lowByte_toNat]; omega

@[simp] theorem highByte_wordOfBytes (hi lo : Byte) : highByte (wordOfBytes hi lo) = hi := by
  have := lo.isLt
  apply BitVec.eq_of_toNat_eq
  rw [highByte_toNat, wordOfBytes_toNat]; omega

@[simp] theorem lowByte_wordOfBytes (hi lo : Byte) : lowByte (wordOfBytes hi lo) = lo := by
  have := lo.isLt
  apply BitVec.eq_of_toNat_eq
  rw [lowByte_toNat, wordOfBytes_toNat]; omega

/-! ### Masked comparisons -/

/-- A nibble of a word, counted from the least significant one. -/
def nibble (k : Nat) (w : Word) : BitVec 4 := w.extractLsb' (4 * k) 4

theorem nibble_and (k : Nat) (v w : Word) : nibble k (v &&& w) = nibble k v &&& nibble k w := by
  simp only [nibble]; ext i hi; simp

theorem nibble_toNat (k : Nat) (w : Word) : (nibble k w).toNat = w.toNat / 2 ^ (4 * k) % 16 := by
  simp [nibble, BitVec.extractLsb'_toNat, Nat.shiftRight_eq_div_pow]

/-- A word is its four nibbles (30_encoding.md R60). -/
theorem word_eq_iff (v w : Word) : v = w ↔
    nibble 3 v = nibble 3 w ∧ nibble 2 v = nibble 2 w ∧ nibble 1 v = nibble 1 w ∧ nibble 0 v = nibble 0 w := by
  refine ⟨fun h => by subst h; exact ⟨rfl, rfl, rfl, rfl⟩, fun ⟨h3, h2, h1, h0⟩ => ?_⟩
  have e3 := congrArg BitVec.toNat h3
  have e2 := congrArg BitVec.toNat h2
  have e1 := congrArg BitVec.toNat h1
  have e0 := congrArg BitVec.toNat h0
  simp only [nibble_toNat] at e3 e2 e1 e0
  have := v.isLt
  have := w.isLt
  exact BitVec.eq_of_toNat_eq (by omega)

/-- A masked comparison is made nibble by nibble (30_encoding.md R65). -/
theorem masked_iff (w mask m : Word) : w &&& mask = m ↔
    nibble 3 w &&& nibble 3 mask = nibble 3 m ∧ nibble 2 w &&& nibble 2 mask = nibble 2 m ∧
    nibble 1 w &&& nibble 1 mask = nibble 1 m ∧ nibble 0 w &&& nibble 0 mask = nibble 0 m := by
  rw [word_eq_iff]; simp only [nibble_and]

theorem fieldN1_eq_nibble (w : Word) : fieldN1 w = nibble 3 w := rfl

theorem fieldN4_eq_nibble (w : Word) : fieldN4 w = nibble 0 w := rfl

theorem fieldByte_eq_iff (v w : Word) :
    fieldByte v = fieldByte w ↔ nibble 1 v = nibble 1 w ∧ nibble 0 v = nibble 0 w := by
  simp only [← BitVec.toNat_inj, fieldByte_toNat, nibble_toNat]
  omega

/-- The mask 0xF000 compares the major opcode (formats A, XB and XYN of R62). -/
theorem and_F000 (w m : Word) (hm : m &&& 0xF000#16 = m) : w &&& 0xF000#16 = m ↔ fieldN1 w = fieldN1 m := by
  have h := (masked_iff m 0xF000#16 m).1 hm
  rw [masked_iff]
  simp only [show nibble 3 0xF000#16 = BitVec.allOnes 4 by decide, show nibble 2 0xF000#16 = 0#4 by decide,
    show nibble 1 0xF000#16 = 0#4 by decide, show nibble 0 0xF000#16 = 0#4 by decide, BitVec.and_allOnes,
    BitVec.and_zero] at h ⊢
  exact ⟨fun e => e.1, fun e => ⟨e, h.2⟩⟩

/-- The mask 0xF00F compares the major and the minor opcode (format XY of R62). -/
theorem and_F00F (w m : Word) (hm : m &&& 0xF00F#16 = m) :
    w &&& 0xF00F#16 = m ↔ fieldN1 w = fieldN1 m ∧ fieldN4 w = fieldN4 m := by
  have h := (masked_iff m 0xF00F#16 m).1 hm
  rw [masked_iff]
  simp only [show nibble 3 0xF00F#16 = BitVec.allOnes 4 by decide, show nibble 2 0xF00F#16 = 0#4 by decide,
    show nibble 1 0xF00F#16 = 0#4 by decide, show nibble 0 0xF00F#16 = BitVec.allOnes 4 by decide,
    BitVec.and_allOnes, BitVec.and_zero] at h ⊢
  exact ⟨fun e => ⟨e.1, e.2.2.2⟩, fun e => ⟨e.1, h.2.1, h.2.2.1, e.2⟩⟩

/-- The mask 0xF0FF compares the major opcode and the low byte (format X of R62). -/
theorem and_F0FF (w m : Word) (hm : m &&& 0xF0FF#16 = m) :
    w &&& 0xF0FF#16 = m ↔ fieldN1 w = fieldN1 m ∧ fieldByte w = fieldByte m := by
  have h := (masked_iff m 0xF0FF#16 m).1 hm
  rw [masked_iff, fieldByte_eq_iff]
  simp only [show nibble 3 0xF0FF#16 = BitVec.allOnes 4 by decide, show nibble 2 0xF0FF#16 = 0#4 by decide,
    show nibble 1 0xF0FF#16 = BitVec.allOnes 4 by decide, show nibble 0 0xF0FF#16 = BitVec.allOnes 4 by decide,
    BitVec.and_allOnes, BitVec.and_zero] at h ⊢
  exact ⟨fun e => ⟨e.1, e.2.2⟩, fun e => ⟨e.1, h.2.1, e.2⟩⟩

/-- The mask 0xFFFF compares the whole word (format FIX of R62). -/
theorem and_FFFF (w m : Word) : w &&& 0xFFFF#16 = m ↔ w = m := by
  rw [show (0xFFFF#16 : Word) = BitVec.allOnes 16 by decide, BitVec.and_allOnes]

end Sys2Proof
end

