-- ==== Sys2Proof/Laws/Memory.lean ====
section
/-! SUPPORT. The laws of RAM: read after write, the canonical form kept by every memory operation, block reads and
writes, and the range check. -/

namespace Sys2Proof.Machine

variable {font : Fontset}

/-! ### One byte -/

theorem Memory.lookup_erase (m : Memory) (a a' : Nat) :
    Memory.lookup (Memory.erase m a) a' = if a' = a then none else Memory.lookup m a' := by
  induction m with
  | nil => simp [Memory.erase, Memory.lookup]
  | cons c m ih =>
    obtain ⟨k, b⟩ := c
    by_cases hk : a = k
    · subst hk
      by_cases h : a' = a
      · subst h; simpa [Memory.erase] using ih
      · simp [Memory.erase, Memory.lookup, ih, h]
    · by_cases h : a' = k
      · subst h
        have : a' ≠ a := fun e => hk e.symm
        simp [Memory.erase, Memory.lookup, hk, this]
      · simp [Memory.erase, Memory.lookup, hk, h, ih]

theorem Memory.lookup_insert (m : Memory) (a a' : Nat) (b : Byte) :
    Memory.lookup (Memory.insert m a b) a' = if a' = a then some b else Memory.lookup m a' := by
  induction m with
  | nil => simp [Memory.insert, Memory.lookup]
  | cons c m ih =>
    obtain ⟨k, d⟩ := c
    unfold Memory.insert
    by_cases h1 : a < k
    · simp [h1, Memory.lookup]
    · by_cases h2 : a = k
      · subst h2
        by_cases h : a' = a <;> simp [Memory.lookup, h]
      · by_cases h : a' = k
        · subst h
          have : a' ≠ a := fun e => h2 e.symm
          simp [h1, h2, Memory.lookup, this]
        · simp [h1, h2, Memory.lookup, h, ih]

/-- A read after a write: the byte written at its address, and every other address as before. -/
theorem Memory.get_set (m : Memory) (a a' : Nat) (b : Byte) :
    Memory.get font (Memory.set font m a b) a' = if a' = a then b else Memory.get font m a' := by
  unfold Memory.set Memory.get
  by_cases hb : b = Memory.unlisted font a
  · by_cases h : a' = a
    · subst h; simp [hb, Memory.lookup_erase]
    · simp [hb, Memory.lookup_erase, h]
  · by_cases h : a' = a <;> simp [hb, Memory.lookup_insert, h]

@[simp] theorem Memory.get_nil (a : Nat) : Memory.get font [] a = Memory.unlisted font a := rfl

/-- Below 0x050 an unlisted address reads as its byte of FONTSET. -/
theorem Memory.unlisted_of_lt {a : Nat} (h : a < 80) : Memory.unlisted font a = font[a] := by
  simp [Memory.unlisted, Vector.getD, h]

/-- From 0x050 an unlisted address reads as 0x00. -/
theorem Memory.unlisted_of_ge {a : Nat} (h : 80 ≤ a) : Memory.unlisted font a = 0x00#8 := by
  simp [Memory.unlisted, Vector.getD, Nat.not_lt.2 h]

/-! ### The canonical form -/

theorem Memory.wf_nil : Memory.wf font [] := by simp [Memory.wf]

theorem Memory.mem_of_mem_erase {m : Memory} {a : Nat} {c : Host.Cell} (h : c ∈ Memory.erase m a) : c ∈ m := by
  induction m with
  | nil => simp [Memory.erase] at h
  | cons d m ih =>
    unfold Memory.erase at h
    split at h
    · exact List.mem_cons_of_mem _ (ih h)
    · rcases List.mem_cons.1 h with rfl | h
      · exact List.mem_cons_self
      · exact List.mem_cons_of_mem _ (ih h)

theorem Memory.mem_insert {m : Memory} {a : Nat} {b : Byte} {c : Host.Cell} (h : c ∈ Memory.insert m a b) :
    c = (a, b) ∨ c ∈ m := by
  induction m with
  | nil => simpa [Memory.insert] using h
  | cons d m ih =>
    obtain ⟨k, e⟩ := d
    unfold Memory.insert at h
    split at h
    · simpa using h
    · split at h
      · rcases List.mem_cons.1 h with h | h
        · exact .inl h
        · exact .inr (List.mem_cons_of_mem _ h)
      · rcases List.mem_cons.1 h with h | h
        · exact .inr (h ▸ List.mem_cons_self)
        · exact (ih h).imp_right (List.mem_cons_of_mem _)

theorem Memory.rising_erase {m : Memory} (a : Nat) (h : m.Pairwise (fun c d => c.1 < d.1)) :
    (Memory.erase m a).Pairwise (fun c d => c.1 < d.1) := by
  induction m with
  | nil => simp [Memory.erase]
  | cons c m ih =>
    have ⟨h1, h2⟩ := List.pairwise_cons.1 h
    unfold Memory.erase
    split
    · exact ih h2
    · exact List.pairwise_cons.2 ⟨fun d hd => h1 d (Memory.mem_of_mem_erase hd), ih h2⟩

theorem Memory.rising_insert {m : Memory} (a : Nat) (b : Byte) (h : m.Pairwise (fun c d => c.1 < d.1)) :
    (Memory.insert m a b).Pairwise (fun c d => c.1 < d.1) := by
  induction m with
  | nil => simp [Memory.insert]
  | cons c m ih =>
    obtain ⟨k, e⟩ := c
    have ⟨h1, h2⟩ := List.pairwise_cons.1 h
    unfold Memory.insert
    split
    · next hlt =>
      refine List.pairwise_cons.2 ⟨fun d hd => ?_, h⟩
      rcases List.mem_cons.1 hd with rfl | hd
      · exact hlt
      · exact Nat.lt_trans hlt (h1 d hd)
    · split
      · next heq => subst heq; exact List.pairwise_cons.2 ⟨h1, h2⟩
      · next hnlt hne =>
        refine List.pairwise_cons.2 ⟨fun d hd => ?_, ih h2⟩
        rcases Memory.mem_insert hd with rfl | hd
        · show k < a
          omega
        · exact h1 d hd

/-- Writing a byte inside RAM keeps the canonical form. -/
theorem Memory.wf_set {m : Memory} {a : Nat} (b : Byte) (ha : a < Config.ramSize) (h : Memory.wf font m) :
    Memory.wf font (Memory.set font m a b) := by
  unfold Memory.set
  split
  · exact ⟨Memory.rising_erase a h.1, fun c hc => h.2 c (Memory.mem_of_mem_erase hc)⟩
  · next hb =>
    refine ⟨Memory.rising_insert a b h.1, fun c hc => ?_⟩
    rcases Memory.mem_insert hc with rfl | hc
    · exact ⟨ha, hb⟩
    · exact h.2 c hc

/-! ### Blocks -/

@[simp] theorem Memory.length_read (m : Memory) (a n : Nat) : (Memory.read font m a n).length = n := by
  induction n generalizing a with
  | zero => rfl
  | succ n ih => simp [Memory.read, ih]

/-- Element `k` of a block read is the byte at `a + k`. -/
theorem Memory.getD_read (m : Memory) (a n k : Nat) (d : Byte) :
    (Memory.read font m a n).getD k d = if k < n then Memory.get font m (a + k) else d := by
  induction n generalizing a k with
  | zero => simp [Memory.read]
  | succ n ih =>
    cases k with
    | zero => simp [Memory.read]
    | succ k =>
      have := ih (a + 1) k
      simp only [Memory.read, List.getD_cons_succ, this, Nat.add_lt_add_iff_right]
      rw [show a + 1 + k = a + (k + 1) by omega]

/-- After a block write, an address inside the block reads the block's byte, and every other address is as before. -/
theorem Memory.get_write (m : Memory) (a : Nat) (bs : List Byte) (c : Nat) :
    Memory.get font (Memory.write font m a bs) c =
      if a ≤ c ∧ c < a + bs.length then bs.getD (c - a) 0#8 else Memory.get font m c := by
  induction bs generalizing m a with
  | nil =>
    have : ¬ (a ≤ c ∧ c < a + ([] : List Byte).length) := by simp
    rw [if_neg this]; rfl
  | cons b bs ih =>
    rw [Memory.write, ih, Memory.get_set]
    by_cases h : c = a
    · subst h
      rw [if_neg (by omega), if_pos rfl, if_pos (by simp)]
      simp
    · by_cases h2 : a + 1 ≤ c ∧ c < a + 1 + bs.length
      · rw [if_pos h2, if_pos (by simp; omega), show c - a = (c - (a + 1)) + 1 by omega]
        simp
      · rw [if_neg h2, if_neg h, if_neg (by simp; omega)]

theorem Memory.get_write_outside (m : Memory) (a : Nat) (bs : List Byte) (c : Nat)
    (h : c < a ∨ a + bs.length ≤ c) : Memory.get font (Memory.write font m a bs) c = Memory.get font m c := by
  rw [Memory.get_write, if_neg (by omega)]

/-- A block write inside RAM keeps the canonical form. -/
theorem Memory.wf_write {m : Memory} {a : Nat} (bs : List Byte) (ha : a + bs.length ≤ Config.ramSize)
    (h : Memory.wf font m) : Memory.wf font (Memory.write font m a bs) := by
  induction bs generalizing m a with
  | nil => exact h
  | cons b bs ih =>
    simp only [List.length_cons] at ha
    exact ih (by omega) (Memory.wf_set b (by simp at *; omega) h)

/-! ### The range check -/

/-- What the range check answers: nothing exactly when every address is in RAM or there is none, and otherwise the
larger of the base and 4096 (60_exceptions.md R204). -/
theorem firstOutside_eq (a n : Nat) :
    firstOutside a n = if n = 0 ∨ a + n ≤ 4096 then none else some (max a 4096) := by
  induction n generalizing a with
  | zero => simp [firstOutside]
  | succ n ih =>
    unfold firstOutside
    by_cases h : a < 4096
    · rw [if_pos h, ih]
      by_cases h2 : a + (n + 1) ≤ 4096
      · rw [if_pos (by omega), if_pos (by omega)]
      · by_cases h3 : n = 0
        · omega
        · rw [if_neg (by omega), if_neg (by omega)]
          congr 1; omega
    · rw [if_neg h, if_neg (by omega)]
      congr 1; omega

theorem firstOutside_eq_none_iff (a n : Nat) : firstOutside a n = none ↔ n = 0 ∨ a + n ≤ 4096 := by
  rw [firstOutside_eq]; split <;> simp_all

theorem firstOutside_eq_some_iff (a n c : Nat) :
    firstOutside a n = some c ↔ 0 < n ∧ 4096 < a + n ∧ c = max a 4096 := by
  rw [firstOutside_eq]; split
  · simp; omega
  · simp; omega

/-- An access whose addresses are all in RAM does its effect. -/
theorem accessRam_of_inside {a n : Nat} (h : n = 0 ∨ a + n ≤ 4096) (e : Result) : accessRam a n e = e := by
  simp [accessRam, (firstOutside_eq_none_iff a n).2 h]

/-- An access with an address outside RAM faults with the lowest one and does nothing else. -/
theorem accessRam_of_outside {a n : Nat} (h : 0 < n ∧ 4096 < a + n) (e : Result) :
    accessRam a n e = .fault (.memoryFault (max a 4096)) := by
  simp [accessRam, (firstOutside_eq_some_iff a n _).2 ⟨h.1, h.2, rfl⟩, raise]

/-- Everything an access can do. -/
theorem accessRam_cases (a n : Nat) (e : Result) :
    (n = 0 ∨ a + n ≤ 4096) ∧ accessRam a n e = e ∨
    (0 < n ∧ 4096 < a + n) ∧ accessRam a n e = .fault (.memoryFault (max a 4096)) := by
  by_cases h : n = 0 ∨ a + n ≤ 4096
  · exact .inl ⟨h, accessRam_of_inside h e⟩
  · have h' : 0 < n ∧ 4096 < a + n := by omega
    exact .inr ⟨h', accessRam_of_outside h' e⟩

/-! ### The state's bytes -/

@[simp] theorem State.length_bytesAt (s : State) (a n : Nat) : (s.bytesAt a n).length = n := Memory.length_read ..

/-- Element `k` of a block of the state's bytes is the byte at `a + k`. -/
theorem State.getD_bytesAt (s : State) (a n k : Nat) (d : Byte) :
    (s.bytesAt a n).getD k d = if k < n then s.byteAt (a + k) else d := Memory.getD_read ..

/-- What a byte of RAM reads as after a block was stored. -/
theorem State.byteAt_storeBytes (s : State) (a : Nat) (bs : List Byte) (c : Nat) :
    (s.storeBytes a bs).byteAt c = if a ≤ c ∧ c < a + bs.length then bs.getD (c - a) 0#8 else s.byteAt c :=
  Memory.get_write ..

/-! ### The fetch -/

/-- The fetch succeeds exactly from 0 to 4094, and then reads the big-endian word at `pc` (20_memory.md R43). -/
theorem State.fetch_eq (s : State) :
    s.fetch = if s.pc.toNat ≤ 4094 then .word (wordOfBytes (s.byteAt s.pc.toNat) (s.byteAt (s.pc.toNat + 1)))
      else .outside (max s.pc.toNat 4096) := by
  unfold State.fetch
  rw [firstOutside_eq]
  by_cases h : s.pc.toNat ≤ 4094
  · rw [if_pos h, if_pos (by omega)]
  · rw [if_neg h, if_neg (by omega)]

end Sys2Proof.Machine
end

