-- ==== Sys2Proof/Laws/Display.lean ====
section
/-! SUPPORT. The laws of the framebuffer and of the sprite loop: a pixel after a toggle, and what a whole sprite does
to every pixel and to the collision bit. The loop is shown to plot a list of distinct pixels, and plotting distinct
pixels is shown to flip exactly those. -/

namespace Sys2Proof.Machine

/-! ### One pixel -/

theorem Framebuffer.pixel_toggle (fb : Framebuffer) (y y' : Fin 32) (x x' : Fin 64) :
    (fb.toggle y x).pixel y' x' = if y' = y ∧ x' = x then !fb.pixel y x else fb.pixel y' x' := by
  unfold Framebuffer.toggle Framebuffer.pixel
  by_cases hy : y' = y
  · subst hy
    by_cases hx : x' = x
    · subst hx; simp
    · have : ¬ x.val = x'.val := fun e => hx (Fin.ext e.symm)
      simp [hx, this]
  · have : ¬ y.val = y'.val := fun e => hy (Fin.ext e.symm)
    simp [hy, this]

@[simp] theorem Framebuffer.pixel_blank (y : Fin 32) (x : Fin 64) : Framebuffer.blank.pixel y x = false := by
  simp [Framebuffer.blank, Framebuffer.pixel]

/-- Two framebuffers with the same pixels are equal. -/
theorem Framebuffer.ext_pixel {f g : Framebuffer} (h : ∀ y x, f.pixel y x = g.pixel y x) : f = g := by
  refine Vector.ext fun y hy => Vector.ext fun x hx => ?_
  exact h ⟨y, hy⟩ ⟨x, hx⟩

/-! ### Plotting a list of pixels -/

/-- Toggle one pixel and collect the collision bit. -/
def plot (acc : Framebuffer × Bool) (p : Fin 32 × Fin 64) : Framebuffer × Bool :=
  (acc.1.toggle p.1 p.2, acc.2 || acc.1.pixel p.1 p.2)

/-- Plotting distinct pixels flips exactly those pixels, and reports whether one of them was lit before. -/
theorem foldl_plot {l : List (Fin 32 × Fin 64)} (hl : l.Pairwise (· ≠ ·)) (acc : Framebuffer × Bool) :
    (∀ y x, (l.foldl plot acc).1.pixel y x = (acc.1.pixel y x != decide ((y, x) ∈ l))) ∧
      (l.foldl plot acc).2 = (acc.2 || l.any fun p => acc.1.pixel p.1 p.2) := by
  induction l generalizing acc with
  | nil => simp
  | cons p l ih =>
    have ⟨hp, hl'⟩ := List.pairwise_cons.1 hl
    have ⟨ih1, ih2⟩ := ih hl' (plot acc p)
    refine ⟨fun y x => ?_, ?_⟩
    · rw [List.foldl_cons, ih1]
      simp only [plot, Framebuffer.pixel_toggle, List.mem_cons]
      by_cases h : (y, x) = p
      · have hn : (y, x) ∉ l := fun hm => hp _ hm h.symm
        subst h
        simp [hn]
      · have h' : ¬ (y = p.1 ∧ x = p.2) := fun e => h (Prod.ext e.1 e.2)
        simp [h, h']
    · rw [List.foldl_cons, ih2]
      have : (l.any fun q => (plot acc p).1.pixel q.1 q.2) = l.any fun q => acc.1.pixel q.1 q.2 := by
        rw [Bool.eq_iff_iff]
        simp only [List.any_eq_true]
        refine exists_congr fun q => and_congr_right fun hq => ?_
        have hne : ¬ (q.1 = p.1 ∧ q.2 = p.2) := fun e => hp q hq (Prod.ext e.1 e.2).symm
        simp [plot, Framebuffer.pixel_toggle, hne]
      rw [this]
      simp [plot, Bool.or_assoc]

/-! ### The pixels of a sprite -/

/-- The pixels one sprite row has a 1 bit for. -/
def rowPixels (cx cy row : Nat) (b : Byte) (cols : List Nat) : List (Fin 32 × Fin 64) :=
  (cols.filter (spriteBit b)).map fun col => (wrapRow (cy + row), wrapColumn (cx + col))

/-- The pixels the sprite rows from `row` downward have a 1 bit for. -/
def spritePixels (cx cy row : Nat) : List Byte → List (Fin 32 × Fin 64)
  | [] => []
  | b :: bs => rowPixels cx cy row b [0, 1, 2, 3, 4, 5, 6, 7] ++ spritePixels cx cy (row + 1) bs

theorem foldl_drawPixel (cx cy row : Nat) (b : Byte) (cols : List Nat) (acc : Framebuffer × Bool) :
    cols.foldl (drawPixel cx cy row b) acc = (rowPixels cx cy row b cols).foldl plot acc := by
  induction cols generalizing acc with
  | nil => rfl
  | cons c cols ih =>
    rw [List.foldl_cons, ih]
    by_cases h : spriteBit b c
    · simp [rowPixels, drawPixel, h, plot]
    · simp [rowPixels, drawPixel, h]

/-- The sprite loop plots the sprite's pixels. -/
theorem drawRows_eq_plot (cx cy row : Nat) (bs : List Byte) (acc : Framebuffer × Bool) :
    drawRows cx cy row bs acc = (spritePixels cx cy row bs).foldl plot acc := by
  induction bs generalizing row acc with
  | nil => rfl
  | cons b bs ih => rw [drawRows, ih, drawRow, foldl_drawPixel, spritePixels, List.foldl_append]

theorem mem_rowPixels {cx cy row : Nat} {b : Byte} {p : Fin 32 × Fin 64} :
    p ∈ rowPixels cx cy row b [0, 1, 2, 3, 4, 5, 6, 7] ↔
      ∃ col, col < 8 ∧ spriteBit b col = true ∧ wrapRow (cy + row) = p.1 ∧ wrapColumn (cx + col) = p.2 := by
  have hcol : ∀ c : Nat, c ∈ [0, 1, 2, 3, 4, 5, 6, 7] ↔ c < 8 := by
    intro c; simp only [List.mem_cons, List.not_mem_nil, or_false]; omega
  simp only [rowPixels, List.mem_map, List.mem_filter, hcol]
  constructor
  · rintro ⟨c, ⟨h1, h2⟩, rfl⟩; exact ⟨c, h1, h2, rfl, rfl⟩
  · rintro ⟨c, h1, h2, h3, h4⟩; exact ⟨c, ⟨h1, h2⟩, Prod.ext h3 h4⟩

/-- A pixel is one of the sprite's exactly when some row and column of the sprite, wrapped, is that pixel and has a
1 bit. -/
theorem mem_spritePixels {cx cy row : Nat} {bs : List Byte} {p : Fin 32 × Fin 64} :
    p ∈ spritePixels cx cy row bs ↔
      ∃ r col, r < bs.length ∧ col < 8 ∧ spriteBit (bs.getD r 0#8) col = true ∧
        wrapRow (cy + (row + r)) = p.1 ∧ wrapColumn (cx + col) = p.2 := by
  induction bs generalizing row with
  | nil => simp [spritePixels]
  | cons b bs ih =>
    rw [spritePixels, List.mem_append, mem_rowPixels, ih]
    constructor
    · rintro (⟨c, h1, h2, h3, h4⟩ | ⟨r, c, h1, h2, h3, h4, h5⟩)
      · exact ⟨0, c, by simp, h1, by simpa using h2, by simpa using h3, h4⟩
      · refine ⟨r + 1, c, by simpa using h1, h2, by simpa using h3, ?_, h5⟩
        rw [← h4]; congr 2; omega
    · rintro ⟨r, c, h1, h2, h3, h4, h5⟩
      cases r with
      | zero => exact .inl ⟨c, h2, by simpa using h3, by simpa using h4, h5⟩
      | succ r =>
        refine .inr ⟨r, c, by simpa using h1, h2, by simpa using h3, ?_, h5⟩
        rw [← h4]; congr 2; omega

/-- A sprite of at most 32 rows addresses each pixel at most once (45_display.md R155, corner case (d)). -/
theorem spritePixels_distinct (cx cy row : Nat) (bs : List Byte) (h : bs.length ≤ 32) :
    (spritePixels cx cy row bs).Pairwise (· ≠ ·) := by
  induction bs generalizing row with
  | nil => exact List.Pairwise.nil
  | cons b bs ih =>
    simp only [List.length_cons] at h
    refine List.pairwise_append.2 ⟨?_, ih _ (by omega), ?_⟩
    · refine List.pairwise_map.2 (List.Pairwise.filter _ ?_)
      have hcols : [0, 1, 2, 3, 4, 5, 6, 7].Pairwise (fun a b : Nat => a < b ∧ b < 8) := by decide
      refine hcols.imp fun {c d} hcd e => ?_
      have := congrArg (fun p => p.2.val) e
      simp only [wrapColumn] at this
      omega
    · intro p hp q hq e
      subst e
      obtain ⟨c, -, -, hr, -⟩ := mem_rowPixels.1 hp
      obtain ⟨r, d, hlt, -, -, hr', -⟩ := mem_spritePixels.1 hq
      have := congrArg Fin.val (hr.trans hr'.symm)
      simp only [wrapRow] at this
      omega

/-- What the sprite loop does: every pixel is flipped exactly when it is one of the sprite's, and the collision bit
says whether one of the sprite's pixels was lit before. -/
theorem drawRows_spec (cx cy : Nat) (bs : List Byte) (h : bs.length ≤ 32) (fb : Framebuffer) :
    (∀ y x, (drawRows cx cy 0 bs (fb, false)).1.pixel y x =
        (fb.pixel y x != decide ((y, x) ∈ spritePixels cx cy 0 bs))) ∧
      (drawRows cx cy 0 bs (fb, false)).2 = (spritePixels cx cy 0 bs).any fun p => fb.pixel p.1 p.2 := by
  rw [drawRows_eq_plot]
  have := foldl_plot (spritePixels_distinct cx cy 0 bs h) (fb, false)
  simpa using this

end Sys2Proof.Machine
end

