-- ==== Sys2Proof/Laws/State.lean ====
section
/-! SUPPORT. One lemma per field per update of State, and what the accessors read after an update. No later proof
unfolds a record update. -/

namespace Sys2Proof.Machine

section fields

variable (s : State)

/-! #### setPc -/

@[simp] theorem State.setPc_pc (t : Word) : (s.setPc t).pc = t := rfl
@[simp] theorem State.setPc_mem (t : Word) : (s.setPc t).mem = s.mem := rfl
@[simp] theorem State.setPc_v (t : Word) : (s.setPc t).v = s.v := rfl
@[simp] theorem State.setPc_i (t : Word) : (s.setPc t).i = s.i := rfl
@[simp] theorem State.setPc_sp (t : Word) : (s.setPc t).sp = s.sp := rfl
@[simp] theorem State.setPc_stack (t : Word) : (s.setPc t).stack = s.stack := rfl
@[simp] theorem State.setPc_keys (t : Word) : (s.setPc t).keys = s.keys := rfl
@[simp] theorem State.setPc_delayTimer (t : Word) : (s.setPc t).delayTimer = s.delayTimer := rfl
@[simp] theorem State.setPc_soundTimer (t : Word) : (s.setPc t).soundTimer = s.soundTimer := rfl
@[simp] theorem State.setPc_fb (t : Word) : (s.setPc t).fb = s.fb := rfl
@[simp] theorem State.setPc_rnd (t : Word) : (s.setPc t).rnd = s.rnd := rfl
@[simp] theorem State.setPc_draws (t : Word) : (s.setPc t).draws = s.draws := rfl
@[simp] theorem State.setPc_schedule (t : Word) : (s.setPc t).schedule = s.schedule := rfl
@[simp] theorem State.setPc_params (t : Word) : (s.setPc t).params = s.params := rfl

@[simp] theorem State.setPc_reg (t : Word) (j : Reg) : (s.setPc t).reg j = s.reg j := rfl
@[simp] theorem State.setPc_base (t : Word) : (s.setPc t).base = s.base := rfl
@[simp] theorem State.setPc_byteAt (t : Word) (a' : Nat) : (s.setPc t).byteAt a' = s.byteAt a' := rfl
@[simp] theorem State.setPc_bytesAt (t : Word) (a' n : Nat) : (s.setPc t).bytesAt a' n = s.bytesAt a' n := rfl
@[simp] theorem State.setPc_randomByte (t : Word) : (s.setPc t).randomByte = s.randomByte := rfl
@[simp] theorem State.setPc_keyDown (t : Word) (q : Byte) : (s.setPc t).keyDown q = s.keyDown q := rfl
@[simp] theorem State.setPc_lowestPressed (t : Word) : (s.setPc t).lowestPressed = s.lowestPressed := rfl

/-! #### setReg -/

@[simp] theorem State.setReg_pc (k : Reg) (b : Byte) : (s.setReg k b).pc = s.pc := rfl
@[simp] theorem State.setReg_mem (k : Reg) (b : Byte) : (s.setReg k b).mem = s.mem := rfl
@[simp] theorem State.setReg_v (k : Reg) (b : Byte) : (s.setReg k b).v = s.v.set k.val b k.isLt := rfl
@[simp] theorem State.setReg_i (k : Reg) (b : Byte) : (s.setReg k b).i = s.i := rfl
@[simp] theorem State.setReg_sp (k : Reg) (b : Byte) : (s.setReg k b).sp = s.sp := rfl
@[simp] theorem State.setReg_stack (k : Reg) (b : Byte) : (s.setReg k b).stack = s.stack := rfl
@[simp] theorem State.setReg_keys (k : Reg) (b : Byte) : (s.setReg k b).keys = s.keys := rfl
@[simp] theorem State.setReg_delayTimer (k : Reg) (b : Byte) : (s.setReg k b).delayTimer = s.delayTimer := rfl
@[simp] theorem State.setReg_soundTimer (k : Reg) (b : Byte) : (s.setReg k b).soundTimer = s.soundTimer := rfl
@[simp] theorem State.setReg_fb (k : Reg) (b : Byte) : (s.setReg k b).fb = s.fb := rfl
@[simp] theorem State.setReg_rnd (k : Reg) (b : Byte) : (s.setReg k b).rnd = s.rnd := rfl
@[simp] theorem State.setReg_draws (k : Reg) (b : Byte) : (s.setReg k b).draws = s.draws := rfl
@[simp] theorem State.setReg_schedule (k : Reg) (b : Byte) : (s.setReg k b).schedule = s.schedule := rfl
@[simp] theorem State.setReg_params (k : Reg) (b : Byte) : (s.setReg k b).params = s.params := rfl

@[simp] theorem State.setReg_base (k : Reg) (b : Byte) : (s.setReg k b).base = s.base := rfl
@[simp] theorem State.setReg_byteAt (k : Reg) (b : Byte) (a' : Nat) : (s.setReg k b).byteAt a' = s.byteAt a' := rfl
@[simp] theorem State.setReg_bytesAt (k : Reg) (b : Byte) (a' n : Nat) : (s.setReg k b).bytesAt a' n = s.bytesAt a' n := rfl
@[simp] theorem State.setReg_npc (k : Reg) (b : Byte) : (s.setReg k b).npc = s.npc := rfl
@[simp] theorem State.setReg_randomByte (k : Reg) (b : Byte) : (s.setReg k b).randomByte = s.randomByte := rfl
@[simp] theorem State.setReg_keyDown (k : Reg) (b : Byte) (q : Byte) : (s.setReg k b).keyDown q = s.keyDown q := rfl
@[simp] theorem State.setReg_lowestPressed (k : Reg) (b : Byte) : (s.setReg k b).lowestPressed = s.lowestPressed := rfl

/-! #### setRegsFrom -/

@[simp] theorem State.setRegsFrom_pc (bs : List Byte) : (s.setRegsFrom bs).pc = s.pc := rfl
@[simp] theorem State.setRegsFrom_mem (bs : List Byte) : (s.setRegsFrom bs).mem = s.mem := rfl
@[simp] theorem State.setRegsFrom_v (bs : List Byte) : (s.setRegsFrom bs).v = Vector.ofFn fun k : Reg => bs.getD k.val s.v[k.val] := rfl
@[simp] theorem State.setRegsFrom_i (bs : List Byte) : (s.setRegsFrom bs).i = s.i := rfl
@[simp] theorem State.setRegsFrom_sp (bs : List Byte) : (s.setRegsFrom bs).sp = s.sp := rfl
@[simp] theorem State.setRegsFrom_stack (bs : List Byte) : (s.setRegsFrom bs).stack = s.stack := rfl
@[simp] theorem State.setRegsFrom_keys (bs : List Byte) : (s.setRegsFrom bs).keys = s.keys := rfl
@[simp] theorem State.setRegsFrom_delayTimer (bs : List Byte) : (s.setRegsFrom bs).delayTimer = s.delayTimer := rfl
@[simp] theorem State.setRegsFrom_soundTimer (bs : List Byte) : (s.setRegsFrom bs).soundTimer = s.soundTimer := rfl
@[simp] theorem State.setRegsFrom_fb (bs : List Byte) : (s.setRegsFrom bs).fb = s.fb := rfl
@[simp] theorem State.setRegsFrom_rnd (bs : List Byte) : (s.setRegsFrom bs).rnd = s.rnd := rfl
@[simp] theorem State.setRegsFrom_draws (bs : List Byte) : (s.setRegsFrom bs).draws = s.draws := rfl
@[simp] theorem State.setRegsFrom_schedule (bs : List Byte) : (s.setRegsFrom bs).schedule = s.schedule := rfl
@[simp] theorem State.setRegsFrom_params (bs : List Byte) : (s.setRegsFrom bs).params = s.params := rfl

@[simp] theorem State.setRegsFrom_base (bs : List Byte) : (s.setRegsFrom bs).base = s.base := rfl
@[simp] theorem State.setRegsFrom_byteAt (bs : List Byte) (a' : Nat) : (s.setRegsFrom bs).byteAt a' = s.byteAt a' := rfl
@[simp] theorem State.setRegsFrom_bytesAt (bs : List Byte) (a' n : Nat) : (s.setRegsFrom bs).bytesAt a' n = s.bytesAt a' n := rfl
@[simp] theorem State.setRegsFrom_npc (bs : List Byte) : (s.setRegsFrom bs).npc = s.npc := rfl
@[simp] theorem State.setRegsFrom_randomByte (bs : List Byte) : (s.setRegsFrom bs).randomByte = s.randomByte := rfl
@[simp] theorem State.setRegsFrom_keyDown (bs : List Byte) (q : Byte) : (s.setRegsFrom bs).keyDown q = s.keyDown q := rfl
@[simp] theorem State.setRegsFrom_lowestPressed (bs : List Byte) : (s.setRegsFrom bs).lowestPressed = s.lowestPressed := rfl

/-! #### setIndex -/

@[simp] theorem State.setIndex_pc (a : Word) : (s.setIndex a).pc = s.pc := rfl
@[simp] theorem State.setIndex_mem (a : Word) : (s.setIndex a).mem = s.mem := rfl
@[simp] theorem State.setIndex_v (a : Word) : (s.setIndex a).v = s.v := rfl
@[simp] theorem State.setIndex_i (a : Word) : (s.setIndex a).i = a := rfl
@[simp] theorem State.setIndex_sp (a : Word) : (s.setIndex a).sp = s.sp := rfl
@[simp] theorem State.setIndex_stack (a : Word) : (s.setIndex a).stack = s.stack := rfl
@[simp] theorem State.setIndex_keys (a : Word) : (s.setIndex a).keys = s.keys := rfl
@[simp] theorem State.setIndex_delayTimer (a : Word) : (s.setIndex a).delayTimer = s.delayTimer := rfl
@[simp] theorem State.setIndex_soundTimer (a : Word) : (s.setIndex a).soundTimer = s.soundTimer := rfl
@[simp] theorem State.setIndex_fb (a : Word) : (s.setIndex a).fb = s.fb := rfl
@[simp] theorem State.setIndex_rnd (a : Word) : (s.setIndex a).rnd = s.rnd := rfl
@[simp] theorem State.setIndex_draws (a : Word) : (s.setIndex a).draws = s.draws := rfl
@[simp] theorem State.setIndex_schedule (a : Word) : (s.setIndex a).schedule = s.schedule := rfl
@[simp] theorem State.setIndex_params (a : Word) : (s.setIndex a).params = s.params := rfl

@[simp] theorem State.setIndex_reg (a : Word) (j : Reg) : (s.setIndex a).reg j = s.reg j := rfl
@[simp] theorem State.setIndex_byteAt (a : Word) (a' : Nat) : (s.setIndex a).byteAt a' = s.byteAt a' := rfl
@[simp] theorem State.setIndex_bytesAt (a : Word) (a' n : Nat) : (s.setIndex a).bytesAt a' n = s.bytesAt a' n := rfl
@[simp] theorem State.setIndex_npc (a : Word) : (s.setIndex a).npc = s.npc := rfl
@[simp] theorem State.setIndex_randomByte (a : Word) : (s.setIndex a).randomByte = s.randomByte := rfl
@[simp] theorem State.setIndex_keyDown (a : Word) (q : Byte) : (s.setIndex a).keyDown q = s.keyDown q := rfl
@[simp] theorem State.setIndex_lowestPressed (a : Word) : (s.setIndex a).lowestPressed = s.lowestPressed := rfl

/-! #### storeBytes -/

@[simp] theorem State.storeBytes_pc (a : Nat) (bs : List Byte) : (s.storeBytes a bs).pc = s.pc := rfl
@[simp] theorem State.storeBytes_mem (a : Nat) (bs : List Byte) : (s.storeBytes a bs).mem = Memory.write s.params.fontset s.mem a bs := rfl
@[simp] theorem State.storeBytes_v (a : Nat) (bs : List Byte) : (s.storeBytes a bs).v = s.v := rfl
@[simp] theorem State.storeBytes_i (a : Nat) (bs : List Byte) : (s.storeBytes a bs).i = s.i := rfl
@[simp] theorem State.storeBytes_sp (a : Nat) (bs : List Byte) : (s.storeBytes a bs).sp = s.sp := rfl
@[simp] theorem State.storeBytes_stack (a : Nat) (bs : List Byte) : (s.storeBytes a bs).stack = s.stack := rfl
@[simp] theorem State.storeBytes_keys (a : Nat) (bs : List Byte) : (s.storeBytes a bs).keys = s.keys := rfl
@[simp] theorem State.storeBytes_delayTimer (a : Nat) (bs : List Byte) : (s.storeBytes a bs).delayTimer = s.delayTimer := rfl
@[simp] theorem State.storeBytes_soundTimer (a : Nat) (bs : List Byte) : (s.storeBytes a bs).soundTimer = s.soundTimer := rfl
@[simp] theorem State.storeBytes_fb (a : Nat) (bs : List Byte) : (s.storeBytes a bs).fb = s.fb := rfl
@[simp] theorem State.storeBytes_rnd (a : Nat) (bs : List Byte) : (s.storeBytes a bs).rnd = s.rnd := rfl
@[simp] theorem State.storeBytes_draws (a : Nat) (bs : List Byte) : (s.storeBytes a bs).draws = s.draws := rfl
@[simp] theorem State.storeBytes_schedule (a : Nat) (bs : List Byte) : (s.storeBytes a bs).schedule = s.schedule := rfl
@[simp] theorem State.storeBytes_params (a : Nat) (bs : List Byte) : (s.storeBytes a bs).params = s.params := rfl

@[simp] theorem State.storeBytes_reg (a : Nat) (bs : List Byte) (j : Reg) : (s.storeBytes a bs).reg j = s.reg j := rfl
@[simp] theorem State.storeBytes_base (a : Nat) (bs : List Byte) : (s.storeBytes a bs).base = s.base := rfl
@[simp] theorem State.storeBytes_npc (a : Nat) (bs : List Byte) : (s.storeBytes a bs).npc = s.npc := rfl
@[simp] theorem State.storeBytes_randomByte (a : Nat) (bs : List Byte) : (s.storeBytes a bs).randomByte = s.randomByte := rfl
@[simp] theorem State.storeBytes_keyDown (a : Nat) (bs : List Byte) (q : Byte) : (s.storeBytes a bs).keyDown q = s.keyDown q := rfl
@[simp] theorem State.storeBytes_lowestPressed (a : Nat) (bs : List Byte) : (s.storeBytes a bs).lowestPressed = s.lowestPressed := rfl

/-! #### setFb -/

@[simp] theorem State.setFb_pc (fb : Framebuffer) : (s.setFb fb).pc = s.pc := rfl
@[simp] theorem State.setFb_mem (fb : Framebuffer) : (s.setFb fb).mem = s.mem := rfl
@[simp] theorem State.setFb_v (fb : Framebuffer) : (s.setFb fb).v = s.v := rfl
@[simp] theorem State.setFb_i (fb : Framebuffer) : (s.setFb fb).i = s.i := rfl
@[simp] theorem State.setFb_sp (fb : Framebuffer) : (s.setFb fb).sp = s.sp := rfl
@[simp] theorem State.setFb_stack (fb : Framebuffer) : (s.setFb fb).stack = s.stack := rfl
@[simp] theorem State.setFb_keys (fb : Framebuffer) : (s.setFb fb).keys = s.keys := rfl
@[simp] theorem State.setFb_delayTimer (fb : Framebuffer) : (s.setFb fb).delayTimer = s.delayTimer := rfl
@[simp] theorem State.setFb_soundTimer (fb : Framebuffer) : (s.setFb fb).soundTimer = s.soundTimer := rfl
@[simp] theorem State.setFb_fb (fb : Framebuffer) : (s.setFb fb).fb = fb := rfl
@[simp] theorem State.setFb_rnd (fb : Framebuffer) : (s.setFb fb).rnd = s.rnd := rfl
@[simp] theorem State.setFb_draws (fb : Framebuffer) : (s.setFb fb).draws = s.draws := rfl
@[simp] theorem State.setFb_schedule (fb : Framebuffer) : (s.setFb fb).schedule = s.schedule := rfl
@[simp] theorem State.setFb_params (fb : Framebuffer) : (s.setFb fb).params = s.params := rfl

@[simp] theorem State.setFb_reg (fb : Framebuffer) (j : Reg) : (s.setFb fb).reg j = s.reg j := rfl
@[simp] theorem State.setFb_base (fb : Framebuffer) : (s.setFb fb).base = s.base := rfl
@[simp] theorem State.setFb_byteAt (fb : Framebuffer) (a' : Nat) : (s.setFb fb).byteAt a' = s.byteAt a' := rfl
@[simp] theorem State.setFb_bytesAt (fb : Framebuffer) (a' n : Nat) : (s.setFb fb).bytesAt a' n = s.bytesAt a' n := rfl
@[simp] theorem State.setFb_npc (fb : Framebuffer) : (s.setFb fb).npc = s.npc := rfl
@[simp] theorem State.setFb_randomByte (fb : Framebuffer) : (s.setFb fb).randomByte = s.randomByte := rfl
@[simp] theorem State.setFb_keyDown (fb : Framebuffer) (q : Byte) : (s.setFb fb).keyDown q = s.keyDown q := rfl
@[simp] theorem State.setFb_lowestPressed (fb : Framebuffer) : (s.setFb fb).lowestPressed = s.lowestPressed := rfl

/-! #### setDelayTimer -/

@[simp] theorem State.setDelayTimer_pc (b : Byte) : (s.setDelayTimer b).pc = s.pc := rfl
@[simp] theorem State.setDelayTimer_mem (b : Byte) : (s.setDelayTimer b).mem = s.mem := rfl
@[simp] theorem State.setDelayTimer_v (b : Byte) : (s.setDelayTimer b).v = s.v := rfl
@[simp] theorem State.setDelayTimer_i (b : Byte) : (s.setDelayTimer b).i = s.i := rfl
@[simp] theorem State.setDelayTimer_sp (b : Byte) : (s.setDelayTimer b).sp = s.sp := rfl
@[simp] theorem State.setDelayTimer_stack (b : Byte) : (s.setDelayTimer b).stack = s.stack := rfl
@[simp] theorem State.setDelayTimer_keys (b : Byte) : (s.setDelayTimer b).keys = s.keys := rfl
@[simp] theorem State.setDelayTimer_delayTimer (b : Byte) : (s.setDelayTimer b).delayTimer = b := rfl
@[simp] theorem State.setDelayTimer_soundTimer (b : Byte) : (s.setDelayTimer b).soundTimer = s.soundTimer := rfl
@[simp] theorem State.setDelayTimer_fb (b : Byte) : (s.setDelayTimer b).fb = s.fb := rfl
@[simp] theorem State.setDelayTimer_rnd (b : Byte) : (s.setDelayTimer b).rnd = s.rnd := rfl
@[simp] theorem State.setDelayTimer_draws (b : Byte) : (s.setDelayTimer b).draws = s.draws := rfl
@[simp] theorem State.setDelayTimer_schedule (b : Byte) : (s.setDelayTimer b).schedule = s.schedule := rfl
@[simp] theorem State.setDelayTimer_params (b : Byte) : (s.setDelayTimer b).params = s.params := rfl

@[simp] theorem State.setDelayTimer_reg (b : Byte) (j : Reg) : (s.setDelayTimer b).reg j = s.reg j := rfl
@[simp] theorem State.setDelayTimer_base (b : Byte) : (s.setDelayTimer b).base = s.base := rfl
@[simp] theorem State.setDelayTimer_byteAt (b : Byte) (a' : Nat) : (s.setDelayTimer b).byteAt a' = s.byteAt a' := rfl
@[simp] theorem State.setDelayTimer_bytesAt (b : Byte) (a' n : Nat) : (s.setDelayTimer b).bytesAt a' n = s.bytesAt a' n := rfl
@[simp] theorem State.setDelayTimer_npc (b : Byte) : (s.setDelayTimer b).npc = s.npc := rfl
@[simp] theorem State.setDelayTimer_randomByte (b : Byte) : (s.setDelayTimer b).randomByte = s.randomByte := rfl
@[simp] theorem State.setDelayTimer_keyDown (b : Byte) (q : Byte) : (s.setDelayTimer b).keyDown q = s.keyDown q := rfl
@[simp] theorem State.setDelayTimer_lowestPressed (b : Byte) : (s.setDelayTimer b).lowestPressed = s.lowestPressed := rfl

/-! #### setSoundTimer -/

@[simp] theorem State.setSoundTimer_pc (b : Byte) : (s.setSoundTimer b).pc = s.pc := rfl
@[simp] theorem State.setSoundTimer_mem (b : Byte) : (s.setSoundTimer b).mem = s.mem := rfl
@[simp] theorem State.setSoundTimer_v (b : Byte) : (s.setSoundTimer b).v = s.v := rfl
@[simp] theorem State.setSoundTimer_i (b : Byte) : (s.setSoundTimer b).i = s.i := rfl
@[simp] theorem State.setSoundTimer_sp (b : Byte) : (s.setSoundTimer b).sp = s.sp := rfl
@[simp] theorem State.setSoundTimer_stack (b : Byte) : (s.setSoundTimer b).stack = s.stack := rfl
@[simp] theorem State.setSoundTimer_keys (b : Byte) : (s.setSoundTimer b).keys = s.keys := rfl
@[simp] theorem State.setSoundTimer_delayTimer (b : Byte) : (s.setSoundTimer b).delayTimer = s.delayTimer := rfl
@[simp] theorem State.setSoundTimer_soundTimer (b : Byte) : (s.setSoundTimer b).soundTimer = b := rfl
@[simp] theorem State.setSoundTimer_fb (b : Byte) : (s.setSoundTimer b).fb = s.fb := rfl
@[simp] theorem State.setSoundTimer_rnd (b : Byte) : (s.setSoundTimer b).rnd = s.rnd := rfl
@[simp] theorem State.setSoundTimer_draws (b : Byte) : (s.setSoundTimer b).draws = s.draws := rfl
@[simp] theorem State.setSoundTimer_schedule (b : Byte) : (s.setSoundTimer b).schedule = s.schedule := rfl
@[simp] theorem State.setSoundTimer_params (b : Byte) : (s.setSoundTimer b).params = s.params := rfl

@[simp] theorem State.setSoundTimer_reg (b : Byte) (j : Reg) : (s.setSoundTimer b).reg j = s.reg j := rfl
@[simp] theorem State.setSoundTimer_base (b : Byte) : (s.setSoundTimer b).base = s.base := rfl
@[simp] theorem State.setSoundTimer_byteAt (b : Byte) (a' : Nat) : (s.setSoundTimer b).byteAt a' = s.byteAt a' := rfl
@[simp] theorem State.setSoundTimer_bytesAt (b : Byte) (a' n : Nat) : (s.setSoundTimer b).bytesAt a' n = s.bytesAt a' n := rfl
@[simp] theorem State.setSoundTimer_npc (b : Byte) : (s.setSoundTimer b).npc = s.npc := rfl
@[simp] theorem State.setSoundTimer_randomByte (b : Byte) : (s.setSoundTimer b).randomByte = s.randomByte := rfl
@[simp] theorem State.setSoundTimer_keyDown (b : Byte) (q : Byte) : (s.setSoundTimer b).keyDown q = s.keyDown q := rfl
@[simp] theorem State.setSoundTimer_lowestPressed (b : Byte) : (s.setSoundTimer b).lowestPressed = s.lowestPressed := rfl

/-! #### consumeDraw -/

@[simp] theorem State.consumeDraw_pc : s.consumeDraw.pc = s.pc := rfl
@[simp] theorem State.consumeDraw_mem : s.consumeDraw.mem = s.mem := rfl
@[simp] theorem State.consumeDraw_v : s.consumeDraw.v = s.v := rfl
@[simp] theorem State.consumeDraw_i : s.consumeDraw.i = s.i := rfl
@[simp] theorem State.consumeDraw_sp : s.consumeDraw.sp = s.sp := rfl
@[simp] theorem State.consumeDraw_stack : s.consumeDraw.stack = s.stack := rfl
@[simp] theorem State.consumeDraw_keys : s.consumeDraw.keys = s.keys := rfl
@[simp] theorem State.consumeDraw_delayTimer : s.consumeDraw.delayTimer = s.delayTimer := rfl
@[simp] theorem State.consumeDraw_soundTimer : s.consumeDraw.soundTimer = s.soundTimer := rfl
@[simp] theorem State.consumeDraw_fb : s.consumeDraw.fb = s.fb := rfl
@[simp] theorem State.consumeDraw_rnd : s.consumeDraw.rnd = s.rnd.tail := rfl
@[simp] theorem State.consumeDraw_draws : s.consumeDraw.draws = s.draws + 1 := rfl
@[simp] theorem State.consumeDraw_schedule : s.consumeDraw.schedule = s.schedule := rfl
@[simp] theorem State.consumeDraw_params : s.consumeDraw.params = s.params := rfl

@[simp] theorem State.consumeDraw_reg (j : Reg) : s.consumeDraw.reg j = s.reg j := rfl
@[simp] theorem State.consumeDraw_base : s.consumeDraw.base = s.base := rfl
@[simp] theorem State.consumeDraw_byteAt (a' : Nat) : s.consumeDraw.byteAt a' = s.byteAt a' := rfl
@[simp] theorem State.consumeDraw_bytesAt (a' n : Nat) : s.consumeDraw.bytesAt a' n = s.bytesAt a' n := rfl
@[simp] theorem State.consumeDraw_npc : s.consumeDraw.npc = s.npc := rfl
@[simp] theorem State.consumeDraw_keyDown (q : Byte) : s.consumeDraw.keyDown q = s.keyDown q := rfl
@[simp] theorem State.consumeDraw_lowestPressed : s.consumeDraw.lowestPressed = s.lowestPressed := rfl

/-! #### advance -/

@[simp] theorem State.advance_pc : s.advance.pc = s.npc := rfl
@[simp] theorem State.advance_mem : s.advance.mem = s.mem := rfl
@[simp] theorem State.advance_v : s.advance.v = s.v := rfl
@[simp] theorem State.advance_i : s.advance.i = s.i := rfl
@[simp] theorem State.advance_sp : s.advance.sp = s.sp := rfl
@[simp] theorem State.advance_stack : s.advance.stack = s.stack := rfl
@[simp] theorem State.advance_keys : s.advance.keys = s.keys := rfl
@[simp] theorem State.advance_delayTimer : s.advance.delayTimer = s.delayTimer := rfl
@[simp] theorem State.advance_soundTimer : s.advance.soundTimer = s.soundTimer := rfl
@[simp] theorem State.advance_fb : s.advance.fb = s.fb := rfl
@[simp] theorem State.advance_rnd : s.advance.rnd = s.rnd := rfl
@[simp] theorem State.advance_draws : s.advance.draws = s.draws := rfl
@[simp] theorem State.advance_schedule : s.advance.schedule = s.schedule := rfl
@[simp] theorem State.advance_params : s.advance.params = s.params := rfl

@[simp] theorem State.advance_reg (j : Reg) : s.advance.reg j = s.reg j := rfl
@[simp] theorem State.advance_base : s.advance.base = s.base := rfl
@[simp] theorem State.advance_byteAt (a' : Nat) : s.advance.byteAt a' = s.byteAt a' := rfl
@[simp] theorem State.advance_bytesAt (a' n : Nat) : s.advance.bytesAt a' n = s.bytesAt a' n := rfl
@[simp] theorem State.advance_randomByte : s.advance.randomByte = s.randomByte := rfl
@[simp] theorem State.advance_keyDown (q : Byte) : s.advance.keyDown q = s.keyDown q := rfl
@[simp] theorem State.advance_lowestPressed : s.advance.lowestPressed = s.lowestPressed := rfl

end fields

/-! #### Registers after a write -/

@[simp] theorem State.reg_setReg_self (s : State) (k : Reg) (b : Byte) : (s.setReg k b).reg k = b := by
  simp [State.reg]

theorem State.reg_setReg_ne (s : State) {j k : Reg} (h : j ≠ k) (b : Byte) : (s.setReg k b).reg j = s.reg j := by
  have h' : ¬ k.val = j.val := fun e => h (Fin.ext e.symm)
  simp [State.reg, h']

theorem State.reg_setReg (s : State) (j k : Reg) (b : Byte) :
    (s.setReg k b).reg j = if j = k then b else s.reg j := by
  by_cases h : j = k
  · subst h; simp
  · simp [State.reg_setReg_ne s h, h]

theorem State.reg_setRegsFrom (s : State) (bs : List Byte) (k : Reg) :
    (s.setRegsFrom bs).reg k = bs.getD k.val (s.reg k) := by
  simp [State.reg]

/-! #### Skips -/

@[simp] theorem State.skipIf_pc (s : State) (c : Bool) :
    (s.skipIf c).pc = if c then s.npc + 2#16 else s.npc := by
  cases c <;> rfl

@[simp] theorem State.skipIf_mem (s : State) (c : Bool) : (s.skipIf c).mem = s.mem := by cases c <;> rfl
@[simp] theorem State.skipIf_v (s : State) (c : Bool) : (s.skipIf c).v = s.v := by cases c <;> rfl
@[simp] theorem State.skipIf_i (s : State) (c : Bool) : (s.skipIf c).i = s.i := by cases c <;> rfl
@[simp] theorem State.skipIf_sp (s : State) (c : Bool) : (s.skipIf c).sp = s.sp := by cases c <;> rfl
@[simp] theorem State.skipIf_stack (s : State) (c : Bool) : (s.skipIf c).stack = s.stack := by cases c <;> rfl
@[simp] theorem State.skipIf_keys (s : State) (c : Bool) : (s.skipIf c).keys = s.keys := by cases c <;> rfl
@[simp] theorem State.skipIf_delayTimer (s : State) (c : Bool) : (s.skipIf c).delayTimer = s.delayTimer := by cases c <;> rfl
@[simp] theorem State.skipIf_soundTimer (s : State) (c : Bool) : (s.skipIf c).soundTimer = s.soundTimer := by cases c <;> rfl
@[simp] theorem State.skipIf_fb (s : State) (c : Bool) : (s.skipIf c).fb = s.fb := by cases c <;> rfl
@[simp] theorem State.skipIf_rnd (s : State) (c : Bool) : (s.skipIf c).rnd = s.rnd := by cases c <;> rfl
@[simp] theorem State.skipIf_draws (s : State) (c : Bool) : (s.skipIf c).draws = s.draws := by cases c <;> rfl
@[simp] theorem State.skipIf_schedule (s : State) (c : Bool) : (s.skipIf c).schedule = s.schedule := by cases c <;> rfl
@[simp] theorem State.skipIf_params (s : State) (c : Bool) : (s.skipIf c).params = s.params := by cases c <;> rfl
@[simp] theorem State.skipIf_reg (s : State) (c : Bool) (j : Reg) : (s.skipIf c).reg j = s.reg j := by
  cases c <;> rfl
@[simp] theorem State.skipIf_byteAt (s : State) (c : Bool) (a : Nat) : (s.skipIf c).byteAt a = s.byteAt a := by
  cases c <;> rfl

/-! #### A result together with a flag -/

@[simp] theorem State.writeResultAndFlag_pc (o : VfAliasOrder) (s : State) (x : Reg) (r : Byte) (f : Bool) :
    (s.writeResultAndFlag o x r f).pc = s.pc := rfl
@[simp] theorem State.writeResultAndFlag_mem (o : VfAliasOrder) (s : State) (x : Reg) (r : Byte) (f : Bool) :
    (s.writeResultAndFlag o x r f).mem = s.mem := rfl
@[simp] theorem State.writeResultAndFlag_i (o : VfAliasOrder) (s : State) (x : Reg) (r : Byte) (f : Bool) :
    (s.writeResultAndFlag o x r f).i = s.i := rfl
@[simp] theorem State.writeResultAndFlag_sp (o : VfAliasOrder) (s : State) (x : Reg) (r : Byte) (f : Bool) :
    (s.writeResultAndFlag o x r f).sp = s.sp := rfl
@[simp] theorem State.writeResultAndFlag_stack (o : VfAliasOrder) (s : State) (x : Reg) (r : Byte) (f : Bool) :
    (s.writeResultAndFlag o x r f).stack = s.stack := rfl
@[simp] theorem State.writeResultAndFlag_keys (o : VfAliasOrder) (s : State) (x : Reg) (r : Byte) (f : Bool) :
    (s.writeResultAndFlag o x r f).keys = s.keys := rfl
@[simp] theorem State.writeResultAndFlag_delayTimer (o : VfAliasOrder) (s : State) (x : Reg) (r : Byte) (f : Bool) :
    (s.writeResultAndFlag o x r f).delayTimer = s.delayTimer := rfl
@[simp] theorem State.writeResultAndFlag_soundTimer (o : VfAliasOrder) (s : State) (x : Reg) (r : Byte) (f : Bool) :
    (s.writeResultAndFlag o x r f).soundTimer = s.soundTimer := rfl
@[simp] theorem State.writeResultAndFlag_fb (o : VfAliasOrder) (s : State) (x : Reg) (r : Byte) (f : Bool) :
    (s.writeResultAndFlag o x r f).fb = s.fb := rfl
@[simp] theorem State.writeResultAndFlag_rnd (o : VfAliasOrder) (s : State) (x : Reg) (r : Byte) (f : Bool) :
    (s.writeResultAndFlag o x r f).rnd = s.rnd := rfl
@[simp] theorem State.writeResultAndFlag_draws (o : VfAliasOrder) (s : State) (x : Reg) (r : Byte) (f : Bool) :
    (s.writeResultAndFlag o x r f).draws = s.draws := rfl
@[simp] theorem State.writeResultAndFlag_schedule (o : VfAliasOrder) (s : State) (x : Reg) (r : Byte) (f : Bool) :
    (s.writeResultAndFlag o x r f).schedule = s.schedule := rfl
@[simp] theorem State.writeResultAndFlag_params (o : VfAliasOrder) (s : State) (x : Reg) (r : Byte) (f : Bool) :
    (s.writeResultAndFlag o x r f).params = s.params := rfl
@[simp] theorem State.writeResultAndFlag_npc (o : VfAliasOrder) (s : State) (x : Reg) (r : Byte) (f : Bool) :
    (s.writeResultAndFlag o x r f).npc = s.npc := rfl
@[simp] theorem State.writeResultAndFlag_byteAt (o : VfAliasOrder) (s : State) (x : Reg) (r : Byte) (f : Bool) (a : Nat) :
    (s.writeResultAndFlag o x r f).byteAt a = s.byteAt a := rfl

/-- With the flag written last, a register reads the flag if it is `v[0xF]`, the result if it is `v[x]`, and is
unchanged otherwise. -/
theorem State.reg_writeResultAndFlag_flagLast (s : State) (x j : Reg) (r : Byte) (f : Bool) :
    (s.writeResultAndFlag .flagLast x r f).reg j =
      if j = flagReg then flagByte f else if j = x then r else s.reg j := by
  simp [State.writeResultAndFlag, writesInOrder, State.reg_setReg]

/-- With the result written last, a register reads the result if it is `v[x]`, the flag if it is `v[0xF]`, and is
unchanged otherwise. -/
theorem State.reg_writeResultAndFlag_resultLast (s : State) (x j : Reg) (r : Byte) (f : Bool) :
    (s.writeResultAndFlag .resultLast x r f).reg j =
      if j = x then r else if j = flagReg then flagByte f else s.reg j := by
  simp [State.writeResultAndFlag, writesInOrder, State.reg_setReg]

/-! #### The stack -/

/-- Push succeeds exactly when fewer than 16 are held; then `stack[sp]` is the address, `sp` is one more, and nothing
else changes. -/
theorem State.push_eq_some_iff (s t : State) (a : Word) :
    s.push a = some t ↔ ∃ h : s.sp.val < 16,
      t = { s with stack := s.stack.set s.sp.val a h, sp := ⟨s.sp.val + 1, by omega⟩ } := by
  unfold State.push
  split
  · next h => simp [h, eq_comm]
  · next h => simp [h]

theorem State.push_eq_none_iff (s : State) (a : Word) : s.push a = none ↔ s.sp.val = 16 := by
  unfold State.push
  have := s.sp.isLt
  split <;> simp <;> omega

/-- Pop succeeds exactly when one is held; it answers `stack[sp - 1]`, `sp` is one less, and nothing else changes. -/
theorem State.pop_eq_some_iff (s t : State) (a : Word) :
    s.pop = some (a, t) ↔ ∃ h : 0 < s.sp.val,
      a = s.stack[s.sp.val - 1]'(by omega) ∧ t = { s with sp := ⟨s.sp.val - 1, by omega⟩ } := by
  unfold State.pop
  split
  · next h => simp [h, eq_comm]
  · next h => simp [h]

theorem State.pop_eq_none_iff (s : State) : s.pop = none ↔ s.sp.val = 0 := by
  unfold State.pop
  split <;> simp <;> omega

end Sys2Proof.Machine
end

