-- ==== Sys2Proof/Laws/Exec.lean ====
section
/-! SUPPORT. What `exec` answers for each constructor in the shared operations, the laws of the operand and flag
helpers, and what one cycle and one step can do. Proofs about an instruction start from these. -/

namespace Sys2Proof.Machine

/-! ### exec, by constructor -/

@[simp] theorem exec_clearScreen (s : State) :
    exec .clearScreen s = .next (s.setFb Framebuffer.blank).advance := rfl
@[simp] theorem exec_jump (addr : Nat) (s : State) :
    exec (.jump addr) s = .next (s.setPc (zextAddr addr)) := rfl
@[simp] theorem exec_jumpPlusV0 (addr : Nat) (s : State) :
    exec (.jumpPlusV0 addr) s = .next (s.setPc (zextAddr addr + zextByte (s.reg 0))) := rfl
@[simp] theorem exec_skipEqImm (x : Reg) (byte : Byte) (s : State) :
    exec (.skipEqImm x byte) s = .next (s.skipIf (s.reg x == byte)) := rfl
@[simp] theorem exec_skipNeqImm (x : Reg) (byte : Byte) (s : State) :
    exec (.skipNeqImm x byte) s = .next (s.skipIf (s.reg x != byte)) := rfl
@[simp] theorem exec_skipEqReg (x y : Reg) (s : State) :
    exec (.skipEqReg x y) s = .next (s.skipIf (s.reg x == s.reg y)) := rfl
@[simp] theorem exec_skipNeqReg (x y : Reg) (s : State) :
    exec (.skipNeqReg x y) s = .next (s.skipIf (s.reg x != s.reg y)) := rfl
@[simp] theorem exec_loadImm (x : Reg) (byte : Byte) (s : State) :
    exec (.loadImm x byte) s = .next (s.setReg x byte).advance := rfl
@[simp] theorem exec_addImm (x : Reg) (byte : Byte) (s : State) :
    exec (.addImm x byte) s = .next (s.setReg x (s.reg x + byte)).advance := rfl
@[simp] theorem exec_move (x y : Reg) (s : State) :
    exec (.move x y) s = .next (s.setReg x (s.reg y)).advance := rfl
@[simp] theorem exec_orReg (x y : Reg) (s : State) :
    exec (.orReg x y) s = .next (s.setReg x (s.reg x ||| s.reg y)).advance := rfl
@[simp] theorem exec_andReg (x y : Reg) (s : State) :
    exec (.andReg x y) s = .next (s.setReg x (s.reg x &&& s.reg y)).advance := rfl
@[simp] theorem exec_xorReg (x y : Reg) (s : State) :
    exec (.xorReg x y) s = .next (s.setReg x (s.reg x ^^^ s.reg y)).advance := rfl
@[simp] theorem exec_addReg (x y : Reg) (s : State) :
    exec (.addReg x y) s = .next (s.writeResultAndFlag s.params.vfAliasOrder x (s.reg x + s.reg y) (carryOut (s.reg x) (s.reg y))).advance := rfl
@[simp] theorem exec_subReg (x y : Reg) (s : State) :
    exec (.subReg x y) s = .next (s.writeResultAndFlag s.params.vfAliasOrder x (s.reg x - s.reg y) (noBorrow (s.reg x) (s.reg y))).advance := rfl
@[simp] theorem exec_shr (x : Reg) (s : State) :
    exec (.shr x) s = .next (s.writeResultAndFlag s.params.vfAliasOrder x (s.reg x >>> 1) (shiftedOutRight (s.reg x))).advance := rfl
@[simp] theorem exec_subnReg (x y : Reg) (s : State) :
    exec (.subnReg x y) s = .next (s.writeResultAndFlag s.params.vfAliasOrder x (s.reg y - s.reg x) (noBorrow (s.reg y) (s.reg x))).advance := rfl
@[simp] theorem exec_shl (x : Reg) (s : State) :
    exec (.shl x) s = .next (s.writeResultAndFlag s.params.vfAliasOrder x (s.reg x <<< 1) (shiftedOutLeft (s.reg x))).advance := rfl
@[simp] theorem exec_setIndex (addr : Nat) (s : State) :
    exec (.setIndex addr) s = .next (s.setIndex (zextAddr addr)).advance := rfl
@[simp] theorem exec_addIndex (x : Reg) (s : State) :
    exec (.addIndex x) s = .next (s.setIndex (s.i + zextByte (s.reg x))).advance := rfl
@[simp] theorem exec_indexToGlyph (x : Reg) (s : State) :
    exec (.indexToGlyph x) s = .next (s.setIndex (5#16 * zextByte (s.reg x))).advance := rfl
@[simp] theorem exec_random (x : Reg) (byte : Byte) (s : State) :
    exec (.random x byte) s = .next (s.consumeDraw.setReg x (s.randomByte &&& byte)).advance := rfl
@[simp] theorem exec_skipIfKeyDown (x : Reg) (s : State) :
    exec (.skipIfKeyDown x) s = .next (s.skipIf (s.keyDown (s.reg x))) := rfl
@[simp] theorem exec_skipIfKeyUp (x : Reg) (s : State) :
    exec (.skipIfKeyUp x) s = .next (s.skipIf (!s.keyDown (s.reg x))) := rfl
@[simp] theorem exec_readDelay (x : Reg) (s : State) :
    exec (.readDelay x) s = .next (s.setReg x s.delayTimer).advance := rfl
@[simp] theorem exec_writeDelay (x : Reg) (s : State) :
    exec (.writeDelay x) s = .next (s.setDelayTimer (s.reg x)).advance := rfl
@[simp] theorem exec_writeSound (x : Reg) (s : State) :
    exec (.writeSound x) s = .next (s.setSoundTimer (s.reg x)).advance := rfl
@[simp] theorem exec_storeBCD (x : Reg) (s : State) :
    exec (.storeBCD x) s = accessRam s.base 3 (.next (s.storeBytes s.base (bcdDigits (s.reg x))).advance) := rfl
@[simp] theorem exec_storeRegs (x : Reg) (s : State) :
    exec (.storeRegs x) s = accessRam s.base (x.val + 1) (.next (s.storeBytes s.base (s.regsUpTo x)).advance) := rfl
@[simp] theorem exec_loadRegs (x : Reg) (s : State) :
    exec (.loadRegs x) s = accessRam s.base (x.val + 1) (.next (s.setRegsFrom (s.bytesAt s.base (x.val + 1))).advance) := rfl

/-- Call with fewer than 16 return addresses held. -/
theorem exec_call_next (addr : Nat) (s : State) (h : s.sp.val < 16) :
    exec (.call addr) s =
      .next (State.setPc { s with stack := s.stack.set s.sp.val s.npc h, sp := ⟨s.sp.val + 1, by omega⟩ }
        (zextAddr addr)) := by
  have := (State.push_eq_some_iff s _ s.npc).2 ⟨h, rfl⟩
  simp [exec, execCall, this, complete]

/-- Call with 16 return addresses held. -/
theorem exec_call_fault (addr : Nat) (s : State) (h : s.sp.val = 16) : exec (.call addr) s = .fault .stackOverflow := by
  simp [exec, execCall, (State.push_eq_none_iff s s.npc).2 h, raise]

/-- Return with a return address held. -/
theorem exec_ret_next (s : State) (h : 0 < s.sp.val) :
    exec .ret s =
      .next (State.setPc { s with sp := ⟨s.sp.val - 1, by omega⟩ } (s.stack[s.sp.val - 1]'(by omega))) := by
  have := (State.pop_eq_some_iff s _ _).2 ⟨h, rfl, rfl⟩
  simp [exec, execReturn, this, complete]

/-- Return with no return address held. -/
theorem exec_ret_fault (s : State) (h : s.sp.val = 0) : exec .ret s = .fault .stackUnderflow := by
  simp [exec, execReturn, (State.pop_eq_none_iff s).2 h, raise]

theorem exec_waitKey_none (x : Reg) (s : State) (h : s.lowestPressed = none) : exec (.waitKey x) s = .next s := by
  simp [exec, execWaitKey, h, complete]

theorem exec_waitKey_some (x : Reg) (s : State) {k : Nat} (h : s.lowestPressed = some k) :
    exec (.waitKey x) s = .next (s.setReg x (BitVec.ofNat 8 k)).advance := by
  simp [exec, execWaitKey, h, complete]

theorem exec_draw (x y : Reg) (n : Nat) (s : State) :
    exec (.draw x y n) s = accessRam s.base n (.next
      ((s.setFb (drawRows (s.reg x).toNat (s.reg y).toNat 0 (s.bytesAt s.base n) (s.fb, false)).1).setReg flagReg
        (flagByte (drawRows (s.reg x).toNat (s.reg y).toNat 0 (s.bytesAt s.base n) (s.fb, false)).2)).advance) :=
  rfl

/-! ### Operands -/

theorem zextAddr_toNat {addr : Nat} (h : addr < 4096) : (zextAddr addr).toNat = addr := by
  simp [zextAddr]; omega

@[simp] theorem zextByte_toNat (b : Byte) : (zextByte b).toNat = b.toNat := by
  have := b.isLt
  simp [zextByte]
  omega

/-- A byte names a pressed key exactly when it is below 16 and that key's bit is set (46_keypad.md R165). -/
theorem State.keyDown_iff (s : State) (q : Byte) :
    s.keyDown q = true ↔ ∃ h : q.toNat < 16, s.keys[q.toNat] = true := by
  by_cases h : q.toNat < 16
  · simp [State.keyDown, h]
  · simp [State.keyDown, h]

theorem lowestPressedFrom_eq_none_iff (k : Nat) (l : List Bool) :
    lowestPressedFrom k l = none ↔ ∀ b ∈ l, b = false := by
  induction l generalizing k with
  | nil => simp [lowestPressedFrom]
  | cons b l ih => cases b <;> simp [lowestPressedFrom, ih]

theorem lowestPressedFrom_eq_some_iff (k j : Nat) (l : List Bool) :
    lowestPressedFrom k l = some j ↔
      k ≤ j ∧ l.getD (j - k) false = true ∧ ∀ q, q < j - k → l.getD q false = false := by
  induction l generalizing k with
  | nil => simp [lowestPressedFrom]
  | cons b l ih =>
    cases b with
    | true =>
      simp only [lowestPressedFrom, if_true, Option.some.injEq]
      constructor
      · rintro rfl; simp
      · rintro ⟨h1, -, h3⟩
        by_cases h : j = k
        · exact h.symm
        · have := h3 0 (by omega); simp at this
    | false =>
      have hif : lowestPressedFrom k (false :: l) = lowestPressedFrom (k + 1) l := rfl
      rw [hif, ih]
      constructor
      · rintro ⟨h1, h2, h3⟩
        rw [show j - k = (j - (k + 1)) + 1 by omega]
        refine ⟨by omega, by simpa using h2, fun q hq => ?_⟩
        cases q with
        | zero => rfl
        | succ q => simpa using h3 q (by omega)
      · rintro ⟨h1, h2, h3⟩
        have hne : j ≠ k := by rintro rfl; simp at h2
        rw [show j - k = (j - (k + 1)) + 1 by omega] at h2 h3
        refine ⟨by omega, by simpa using h2, fun q hq => ?_⟩
        simpa using h3 (q + 1) (by omega)

/-- No key is lowest exactly when none is pressed (46_keypad.md R167). -/
theorem State.lowestPressed_eq_none_iff (s : State) :
    s.lowestPressed = none ↔ ∀ k : Fin 16, s.keys[k.val] = false := by
  rw [State.lowestPressed, lowestPressedFrom_eq_none_iff]
  constructor
  · intro h k
    exact h _ (by simp)
  · intro h b hb
    obtain ⟨k, hk, rfl⟩ := List.mem_iff_getElem.1 hb
    simp only [Vector.length_toList] at hk
    simpa using h ⟨k, hk⟩

/-- The lowest key is pressed and no lower one is (46_keypad.md R167). -/
theorem State.lowestPressed_eq_some_iff (s : State) (j : Nat) :
    s.lowestPressed = some j ↔
      ∃ h : j < 16, s.keys[j] = true ∧ ∀ k : Fin 16, k.val < j → s.keys[k.val] = false := by
  rw [State.lowestPressed, lowestPressedFrom_eq_some_iff]
  simp only [Nat.zero_le, Nat.sub_zero, true_and]
  constructor
  · rintro ⟨h1, h2⟩
    have hj : j < 16 := by
      by_cases h : j < 16
      · exact h
      · simp [h] at h1
    refine ⟨hj, by simpa [hj] using h1, fun k hk => ?_⟩
    simpa using h2 k.val hk
  · rintro ⟨hj, h1, h2⟩
    refine ⟨by simpa [hj] using h1, fun q hq => ?_⟩
    have hq' : q < 16 := by omega
    simpa [hq'] using h2 ⟨q, hq'⟩ hq

/-! ### Flags -/

theorem flagByte_eq_one_iff (f : Bool) : flagByte f = 1#8 ↔ f = true := by cases f <;> simp [flagByte]

theorem flagByte_eq_zero_iff (f : Bool) : flagByte f = 0#8 ↔ f = false := by cases f <;> simp [flagByte]

theorem flagByte_toNat (f : Bool) : (flagByte f).toNat = if f then 1 else 0 := by cases f <;> rfl

/-- What a register reads after a result and a flag were written: the order matters only where both go to `v[0xF]`. -/
theorem reg_writeResultAndFlag (o : VfAliasOrder) (s : State) (x j : Reg) (r : Byte) (f : Bool) :
    (s.writeResultAndFlag o x r f).reg j =
      if j = flagReg ∧ (o = .flagLast ∨ x ≠ flagReg) then flagByte f else if j = x then r else s.reg j := by
  cases o
  · simp [State.reg_writeResultAndFlag_flagLast]
  · rw [State.reg_writeResultAndFlag_resultLast]
    by_cases hx : j = x
    · subst hx
      by_cases hj : j = flagReg <;> simp [hj]
    · by_cases hj : j = flagReg
      · subst hj; simp [hx, Ne.symm hx]
      · simp [hx, hj]

/-- With any other destination than `v[0xF]` the order does not matter. -/
theorem reg_writeResultAndFlag_of_ne (o : VfAliasOrder) (s : State) {x : Reg} (h : x ≠ flagReg) (j : Reg) (r : Byte)
    (f : Bool) : (s.writeResultAndFlag o x r f).reg j =
      if j = flagReg then flagByte f else if j = x then r else s.reg j := by
  rw [reg_writeResultAndFlag]; simp [h]

/-! ### The cycle and the step -/

theorem State.nextOp_nil {s : State} (h : s.schedule = []) : s.nextOp = (.step, s) := by
  simp [State.nextOp, h]

theorem State.nextOp_cons {s : State} {op : HostOp} {rest : List HostOp} (h : s.schedule = op :: rest) :
    s.nextOp = (op, { s with schedule := rest }) := by
  simp [State.nextOp, h]

/-- With nothing scheduled a transition is one fetch-decode-execute cycle. -/
theorem step_eq_cycle {s : State} (h : s.schedule = []) : step s = cycle s := by
  simp [step, State.nextOp_nil h, perform]

/-- With an operation scheduled a transition performs it. -/
theorem step_eq_perform {s : State} {op : HostOp} {rest : List HostOp} (h : s.schedule = op :: rest) :
    step s = perform op { s with schedule := rest } := by
  simp [step, State.nextOp_cons h]

/-- Everything a cycle can do: a fetch fault, an unknown word, or the decoded instruction. -/
theorem cycle_cases (s : State) :
    (4094 < s.pc.toNat ∧ cycle s = .fault (.memoryFault (max s.pc.toNat 4096))) ∨
    (s.pc.toNat ≤ 4094 ∧
      ((∃ raw, decode (wordOfBytes (s.byteAt s.pc.toNat) (s.byteAt (s.pc.toNat + 1))) = .unknown raw ∧
          cycle s = .fault (.unknownOpcode raw)) ∨
        ∃ i, decode (wordOfBytes (s.byteAt s.pc.toNat) (s.byteAt (s.pc.toNat + 1))) = .instr i ∧
          cycle s = exec i s)) := by
  by_cases h : s.pc.toNat ≤ 4094
  · refine .inr ⟨h, ?_⟩
    cases hd : decode (wordOfBytes (s.byteAt s.pc.toNat) (s.byteAt (s.pc.toNat + 1))) with
    | unknown raw => exact .inl ⟨raw, rfl, by simp [cycle, State.fetch_eq, h, hd, raise]⟩
    | instr i => exact .inr ⟨i, rfl, by simp [cycle, State.fetch_eq, h, hd]⟩
  · exact .inl ⟨by omega, by simp [cycle, State.fetch_eq, h, raise]⟩

/-- The word placed by `withFetchWord` is the word the next fetch reads. -/
theorem State.fetch_withFetchWord (s : State) (nbits w : Nat) :
    (s.withFetchWord nbits w).fetch = .word (BitVec.ofNat 16 (w % 2 ^ nbits)) := by
  have key : ∀ (font : Fontset) (m : Memory) (a : Nat) (z : Word),
      wordOfBytes (Memory.get font (Memory.write font m a [highByte z, lowByte z]) a)
        (Memory.get font (Memory.write font m a [highByte z, lowByte z]) (a + 1)) = z := by
    intro font m a z
    rw [Memory.get_write, Memory.get_write, if_pos (by simp), if_pos (by simp)]
    simp
  have hpar : (s.withFetchWord nbits w).params = s.params := rfl
  rw [State.fetch_eq]
  by_cases h : s.pc.toNat + 1 < Config.ramSize
  · have hpc : (s.withFetchWord nbits w).pc = s.pc := by simp [State.withFetchWord, h]
    rw [if_pos (by rw [hpc]; have : s.pc.toNat + 1 < 4096 := h; omega)]
    have : (s.withFetchWord nbits w).mem = Memory.write s.params.fontset s.mem s.pc.toNat
        [highByte (BitVec.ofNat 16 (w % 2 ^ nbits)), lowByte (BitVec.ofNat 16 (w % 2 ^ nbits))] := by
      simp [State.withFetchWord, h]
    simp only [State.byteAt, this, hpar, hpc, key]
  · have hpc : (s.withFetchWord nbits w).pc = 0x200#16 := by simp [State.withFetchWord, h]
    rw [if_pos (by rw [hpc]; decide)]
    have : (s.withFetchWord nbits w).mem = Memory.write s.params.fontset s.mem 0x200
        [highByte (BitVec.ofNat 16 (w % 2 ^ nbits)), lowByte (BitVec.ofNat 16 (w % 2 ^ nbits))] := by
      simp [State.withFetchWord, h, Config.programOrigin]
    simp only [State.byteAt, this, hpar, hpc, show (0x200#16).toNat = 0x200 from rfl, key]

end Sys2Proof.Machine
end

