-- ==== Sys2Proof/Laws/PerInstr.lean ====
section
/-! SUPPORT. The family EncodingRow: for every instruction, the word the encoder gives it matches the row of the opcode
map with that instruction's number (spec/30_encoding.md R62, R66). One lemma per constructor of Instr. -/

namespace Sys2Proof.Laws.EncodingRow

/-- The row of the opcode map that bears the instruction's `op` number exists, and the encoded word matches it. -/
def Statement (i : Instr) : Prop := ∃ row, opcodeMap[i.op]? = some row ∧ row.op = i.op ∧ row.matches (encode i) = true

/-- Formats A, XB and XYN compare the major opcode. -/
theorem of_major {i : Instr} (row : OpcodeRow) (h : opcodeMap[i.op]? = some row) (hop : row.op = i.op)
    (hmask : row.mask = 0xF000#16) (hm : row.matchBits &&& 0xF000#16 = row.matchBits)
    (h1 : fieldN1 (encode i) = fieldN1 row.matchBits) : Statement i :=
  ⟨row, h, hop, by simpa [OpcodeRow.matches, hmask] using (and_F000 _ _ hm).2 h1⟩

/-- Format XY compares the major and the minor opcode. -/
theorem of_minor {i : Instr} (row : OpcodeRow) (h : opcodeMap[i.op]? = some row) (hop : row.op = i.op)
    (hmask : row.mask = 0xF00F#16) (hm : row.matchBits &&& 0xF00F#16 = row.matchBits)
    (h1 : fieldN1 (encode i) = fieldN1 row.matchBits) (h2 : fieldN4 (encode i) = fieldN4 row.matchBits) :
    Statement i :=
  ⟨row, h, hop, by simpa [OpcodeRow.matches, hmask] using (and_F00F _ _ hm).2 ⟨h1, h2⟩⟩

/-- Format X compares the major opcode and the low byte. -/
theorem of_low {i : Instr} (row : OpcodeRow) (h : opcodeMap[i.op]? = some row) (hop : row.op = i.op)
    (hmask : row.mask = 0xF0FF#16) (hm : row.matchBits &&& 0xF0FF#16 = row.matchBits)
    (h1 : fieldN1 (encode i) = fieldN1 row.matchBits) (h2 : fieldByte (encode i) = fieldByte row.matchBits) :
    Statement i :=
  ⟨row, h, hop, by simpa [OpcodeRow.matches, hmask] using (and_F0FF _ _ hm).2 ⟨h1, h2⟩⟩

theorem clearScreen : Statement .clearScreen := ⟨_, rfl, rfl, by decide⟩
theorem ret : Statement .ret := ⟨_, rfl, rfl, by decide⟩
theorem jump (addr : Nat) : Statement (.jump addr) :=
  of_major _ rfl rfl rfl (by decide) (fieldN1_wordA _ _)
theorem call (addr : Nat) : Statement (.call addr) :=
  of_major _ rfl rfl rfl (by decide) (fieldN1_wordA _ _)
theorem setIndex (addr : Nat) : Statement (.setIndex addr) :=
  of_major _ rfl rfl rfl (by decide) (fieldN1_wordA _ _)
theorem jumpPlusV0 (addr : Nat) : Statement (.jumpPlusV0 addr) :=
  of_major _ rfl rfl rfl (by decide) (fieldN1_wordA _ _)
theorem skipEqImm (x : Reg) (byte : Byte) : Statement (.skipEqImm x byte) :=
  of_major _ rfl rfl rfl (by decide) (fieldN1_wordXB _ _ _)
theorem skipNeqImm (x : Reg) (byte : Byte) : Statement (.skipNeqImm x byte) :=
  of_major _ rfl rfl rfl (by decide) (fieldN1_wordXB _ _ _)
theorem loadImm (x : Reg) (byte : Byte) : Statement (.loadImm x byte) :=
  of_major _ rfl rfl rfl (by decide) (fieldN1_wordXB _ _ _)
theorem addImm (x : Reg) (byte : Byte) : Statement (.addImm x byte) :=
  of_major _ rfl rfl rfl (by decide) (fieldN1_wordXB _ _ _)
theorem random (x : Reg) (byte : Byte) : Statement (.random x byte) :=
  of_major _ rfl rfl rfl (by decide) (fieldN1_wordXB _ _ _)
theorem draw (x y : Reg) (n : Nat) : Statement (.draw x y n) :=
  of_major _ rfl rfl rfl (by decide) (fieldN1_wordXY _ _ _ _)
theorem skipEqReg (x y : Reg) : Statement (.skipEqReg x y) :=
  of_minor _ rfl rfl rfl (by decide) (fieldN1_wordXY _ _ _ _) (fieldN4_wordXY _ _ _ _)
theorem move (x y : Reg) : Statement (.move x y) :=
  of_minor _ rfl rfl rfl (by decide) (fieldN1_wordXY _ _ _ _) (fieldN4_wordXY _ _ _ _)
theorem orReg (x y : Reg) : Statement (.orReg x y) :=
  of_minor _ rfl rfl rfl (by decide) (fieldN1_wordXY _ _ _ _) (fieldN4_wordXY _ _ _ _)
theorem andReg (x y : Reg) : Statement (.andReg x y) :=
  of_minor _ rfl rfl rfl (by decide) (fieldN1_wordXY _ _ _ _) (fieldN4_wordXY _ _ _ _)
theorem xorReg (x y : Reg) : Statement (.xorReg x y) :=
  of_minor _ rfl rfl rfl (by decide) (fieldN1_wordXY _ _ _ _) (fieldN4_wordXY _ _ _ _)
theorem addReg (x y : Reg) : Statement (.addReg x y) :=
  of_minor _ rfl rfl rfl (by decide) (fieldN1_wordXY _ _ _ _) (fieldN4_wordXY _ _ _ _)
theorem subReg (x y : Reg) : Statement (.subReg x y) :=
  of_minor _ rfl rfl rfl (by decide) (fieldN1_wordXY _ _ _ _) (fieldN4_wordXY _ _ _ _)
theorem subnReg (x y : Reg) : Statement (.subnReg x y) :=
  of_minor _ rfl rfl rfl (by decide) (fieldN1_wordXY _ _ _ _) (fieldN4_wordXY _ _ _ _)
theorem skipNeqReg (x y : Reg) : Statement (.skipNeqReg x y) :=
  of_minor _ rfl rfl rfl (by decide) (fieldN1_wordXY _ _ _ _) (fieldN4_wordXY _ _ _ _)
theorem shr (x : Reg) : Statement (.shr x) :=
  of_minor _ rfl rfl rfl (by decide) (fieldN1_wordXY _ _ _ _) (fieldN4_wordXY _ _ _ _)
theorem shl (x : Reg) : Statement (.shl x) :=
  of_minor _ rfl rfl rfl (by decide) (fieldN1_wordXY _ _ _ _) (fieldN4_wordXY _ _ _ _)
theorem skipIfKeyDown (x : Reg) : Statement (.skipIfKeyDown x) :=
  of_low _ rfl rfl rfl (by decide) (fieldN1_wordXB _ _ _) (fieldByte_wordXB _ _ _)
theorem skipIfKeyUp (x : Reg) : Statement (.skipIfKeyUp x) :=
  of_low _ rfl rfl rfl (by decide) (fieldN1_wordXB _ _ _) (fieldByte_wordXB _ _ _)
theorem readDelay (x : Reg) : Statement (.readDelay x) :=
  of_low _ rfl rfl rfl (by decide) (fieldN1_wordXB _ _ _) (fieldByte_wordXB _ _ _)
theorem waitKey (x : Reg) : Statement (.waitKey x) :=
  of_low _ rfl rfl rfl (by decide) (fieldN1_wordXB _ _ _) (fieldByte_wordXB _ _ _)
theorem writeDelay (x : Reg) : Statement (.writeDelay x) :=
  of_low _ rfl rfl rfl (by decide) (fieldN1_wordXB _ _ _) (fieldByte_wordXB _ _ _)
theorem writeSound (x : Reg) : Statement (.writeSound x) :=
  of_low _ rfl rfl rfl (by decide) (fieldN1_wordXB _ _ _) (fieldByte_wordXB _ _ _)
theorem addIndex (x : Reg) : Statement (.addIndex x) :=
  of_low _ rfl rfl rfl (by decide) (fieldN1_wordXB _ _ _) (fieldByte_wordXB _ _ _)
theorem indexToGlyph (x : Reg) : Statement (.indexToGlyph x) :=
  of_low _ rfl rfl rfl (by decide) (fieldN1_wordXB _ _ _) (fieldByte_wordXB _ _ _)
theorem storeBCD (x : Reg) : Statement (.storeBCD x) :=
  of_low _ rfl rfl rfl (by decide) (fieldN1_wordXB _ _ _) (fieldByte_wordXB _ _ _)
theorem storeRegs (x : Reg) : Statement (.storeRegs x) :=
  of_low _ rfl rfl rfl (by decide) (fieldN1_wordXB _ _ _) (fieldByte_wordXB _ _ _)
theorem loadRegs (x : Reg) : Statement (.loadRegs x) :=
  of_low _ rfl rfl rfl (by decide) (fieldN1_wordXB _ _ _) (fieldByte_wordXB _ _ _)

end Sys2Proof.Laws.EncodingRow
end

