-- ==== Sys2Proof/Tests/Slice0.lean ====
section
/-! SUPPORT. Tests with expected results from spec/95_test_vectors.md (the vector's name stands beside each test) or
by hand from the rules, and the witnesses: for every statement with hypotheses, a concrete state and operands that meet
them, at the boundary of each clause. -/

namespace Sys2Proof.Machine.Test

open Sys2Proof Sys2Proof.Machine

/-! ### Helpers -/

def nextOf (r : Result) : Option State := match r with | .next t => some t | _ => none

def faultOf (r : Result) : Option Fault := match r with | .fault f => some f | _ => none

/-- The reset state with some registers set. -/
def withRegs (l : List (Reg × Byte)) : State := l.foldl (fun s c => s.setReg c.1 c.2) State.reset

/-- The reset state of the machine with the other value of VF_ALIAS_ORDER. -/
def resultLast : State := State.resetWith { crust8Parameters with vfAliasOrder := .resultLast }

/-- One step on the word `w`, placed where the step fetches. -/
def stepOn (s : State) (w : Nat) : Option State := nextOf (step (s.withFetchWord 16 w))

/-- The fault of one step on the word `w`. -/
def faultOn (s : State) (w : Nat) : Option Fault := faultOf (step (s.withFetchWord 16 w))

/-- The pair of one register and the flag register after one step. -/
def regAndFlag (s : State) (w : Nat) (k : Reg) : Option (Byte × Byte) := (stepOn s w).map fun t => (t.reg k, t.reg 15)

/-- Sprite bytes at 0x300, `i` there. -/
def withSprite (bs : List Byte) (s : State) : State := (s.setIndex 0x300#16).storeBytes 0x300 bs

/-- The pixels (row, column) that are lit, among some. -/
def litAmong (ps : List (Fin 32 × Fin 64)) (s : State) : List Bool := ps.map fun p => s.fb.pixel p.1 p.2

def keysDown (l : List Nat) (s : State) : State := l.foldl (fun t k => hostSetKey k true t) s

/-! ### WellFormed: each check refuses an ill-formed term -/

theorem test_wellFormed_jump : (Instr.jump 4096).wellFormed = false := by decide
theorem test_wellFormed_call : (Instr.call 4096).wellFormed = false := by decide
theorem test_wellFormed_jumpPlusV0 : (Instr.jumpPlusV0 4096).wellFormed = false := by decide
theorem test_wellFormed_setIndex : (Instr.setIndex 4096).wellFormed = false := by decide
theorem test_wellFormed_draw : (Instr.draw 0 0 16).wellFormed = false := by decide
theorem test_wellFormed_largest :
    (Instr.jump 4095).wellFormed = true ∧ (Instr.call 4095).wellFormed = true ∧
    (Instr.jumpPlusV0 4095).wellFormed = true ∧ (Instr.setIndex 4095).wellFormed = true ∧
    (Instr.draw 15 15 15).wellFormed = true := by decide

/-! ### Decode: the words of 95_test_vectors.md 2.1, every constructor at least once -/

theorem test_decode_control_flow :
    decode 0x00EE#16 = .instr .ret ∧ decode 0x10E0#16 = .instr (.jump 0x0E0) ∧
    decode 0x2FFF#16 = .instr (.call 0xFFF) ∧ decode 0xBFFF#16 = .instr (.jumpPlusV0 0xFFF) := by decide
theorem test_decode_alu :
    decode 0x8120#16 = .instr (.move 1 2) ∧ decode 0x8121#16 = .instr (.orReg 1 2) ∧
    decode 0x8122#16 = .instr (.andReg 1 2) ∧ decode 0x8123#16 = .instr (.xorReg 1 2) ∧
    decode 0x8124#16 = .instr (.addReg 1 2) ∧ decode 0x8125#16 = .instr (.subReg 1 2) ∧
    decode 0x8126#16 = .instr (.shr 1) ∧ decode 0x81F6#16 = .instr (.shr 1) ∧
    decode 0x8127#16 = .instr (.subnReg 1 2) ∧ decode 0x812E#16 = .instr (.shl 1) ∧
    decode 0x8FF7#16 = .instr (.subnReg 15 15) := by decide
theorem test_decode_immediate :
    decode 0x3A7F#16 = .instr (.skipEqImm 10 0x7F#8) ∧ decode 0x4A7F#16 = .instr (.skipNeqImm 10 0x7F#8) ∧
    decode 0x5120#16 = .instr (.skipEqReg 1 2) ∧ decode 0x6005#16 = .instr (.loadImm 0 0x05#8) ∧
    decode 0x7FFF#16 = .instr (.addImm 15 0xFF#8) ∧ decode 0x9AB0#16 = .instr (.skipNeqReg 10 11) := by decide
theorem test_decode_index_random :
    decode 0xA2F0#16 = .instr (.setIndex 0x2F0) ∧ decode 0xF21E#16 = .instr (.addIndex 2) ∧
    decode 0xF329#16 = .instr (.indexToGlyph 3) ∧ decode 0xCAFF#16 = .instr (.random 10 0xFF#8) := by decide
theorem test_decode_display_keypad :
    decode 0x00E0#16 = .instr .clearScreen ∧ decode 0xD000#16 = .instr (.draw 0 0 0) ∧
    decode 0xD12F#16 = .instr (.draw 1 2 15) ∧ decode 0xE19E#16 = .instr (.skipIfKeyDown 1) ∧
    decode 0xE1A1#16 = .instr (.skipIfKeyUp 1) ∧ decode 0xF30A#16 = .instr (.waitKey 3) := by decide
theorem test_decode_timers_memory :
    decode 0xF007#16 = .instr (.readDelay 0) ∧ decode 0xF215#16 = .instr (.writeDelay 2) ∧
    decode 0xF518#16 = .instr (.writeSound 5) ∧ decode 0xF233#16 = .instr (.storeBCD 2) ∧
    decode 0xFF55#16 = .instr (.storeRegs 15) ∧ decode 0xFF65#16 = .instr (.loadRegs 15) := by decide
theorem test_decode_unknown_low_groups :
    decode 0x0000#16 = .unknown 0x0000#16 ∧ decode 0x00E1#16 = .unknown 0x00E1#16 ∧
    decode 0x00FE#16 = .unknown 0x00FE#16 ∧ decode 0x01E0#16 = .unknown 0x01E0#16 ∧
    decode 0x0005#16 = .unknown 0x0005#16 ∧ decode 0x5121#16 = .unknown 0x5121#16 ∧
    decode 0x512F#16 = .unknown 0x512F#16 ∧ decode 0x8128#16 = .unknown 0x8128#16 ∧
    decode 0x812D#16 = .unknown 0x812D#16 ∧ decode 0x812F#16 = .unknown 0x812F#16 ∧
    decode 0x9AB1#16 = .unknown 0x9AB1#16 := by decide
theorem test_decode_unknown_high_groups :
    decode 0xE19F#16 = .unknown 0xE19F#16 ∧ decode 0xE000#16 = .unknown 0xE000#16 ∧
    decode 0xF000#16 = .unknown 0xF000#16 ∧ decode 0xF075#16 = .unknown 0xF075#16 ∧
    decode 0xF085#16 = .unknown 0xF085#16 ∧ decode 0xF11F#16 = .unknown 0xF11F#16 ∧
    decode 0xFFFF#16 = .unknown 0xFFFF#16 := by decide
theorem test_decodeTableWord :
    decodeTableWord 16 0x8126 = some (.shr 1) ∧ decodeTableWord 16 0x5121 = none ∧
    decodeTableWord 16 0x6005 = some (.loadImm 0 0x05#8) := by decide
theorem test_opcodeMap_rows_disjoint :
    opcodeMap.Pairwise fun r r' => (r.matchBits ^^^ r'.matchBits) &&& (r.mask &&& r'.mask) ≠ 0#16 := by decide
theorem test_opcodeMap_has_34_rows : opcodeMap.length = 34 := by decide

/-! ### Memory -/

theorem test_memory_reset_reads : State.reset.byteAt 0 = 0xF0#8 ∧ State.reset.byteAt 0x4F = 0x80#8 ∧
    State.reset.byteAt 0x50 = 0x00#8 ∧ State.reset.byteAt 0xFFF = 0x00#8 := by decide
/-- Another FONTSET: what RAM below 0x050 reads as after reset follows the parameter. -/
theorem test_memory_reads_the_parameter :
    (State.resetWith { crust8Parameters with fontset := Vector.replicate 80 0x5A#8 }).byteAt 0x4F = 0x5A#8 ∧
    (State.resetWith { crust8Parameters with fontset := Vector.replicate 80 0x5A#8 }).byteAt 0x50 = 0x00#8 := by decide
theorem test_memory_keeps_order : Memory.write defaultFontset (Memory.set defaultFontset [] 0x301 0x02#8) 0x300 [0x01#8, 0x03#8] =
    [(0x300, 0x01#8), (0x301, 0x03#8)] := by decide
theorem test_memory_unlists_reset_contents :
    Memory.set defaultFontset (Memory.set defaultFontset [] 0x300 0x07#8) 0x300 0x00#8 = [] ∧
    Memory.set defaultFontset [] 0 0xF0#8 = [] := by decide

/-! ### Control flow -/

/-- F1 -/
theorem test_jump : (stepOn State.reset 0x1234).map State.pc = some 0x234#16 := by decide
theorem test_call : (stepOn State.reset 0x2300).map (fun t => (t.pc, t.sp, t.stack[0])) =
    some (0x300#16, 1, 0x202#16) := by decide
theorem test_call_overflow : faultOn { State.reset with sp := 16 } 0x2300 = some .stackOverflow := by decide
theorem test_return : (stepOn { State.reset with sp := 2, stack := State.reset.stack.set 1 0x345#16 } 0x00EE).map
    (fun t => (t.pc, t.sp, t.stack[1])) = some (0x345#16, 1, 0x345#16) := by decide
theorem test_return_underflow : faultOn State.reset 0x00EE = some .stackUnderflow := by decide
theorem test_jumpPlusV0 : (stepOn (withRegs [(0, 0xFF#8), (15, 0x01#8)]) 0xBFFF).map State.pc =
    some 0x10FE#16 := by decide

/-! ### Register arithmetic and logic (2.3) -/

theorem test_move : regAndFlag (withRegs [(1, 0x11#8), (2, 0x2A#8), (15, 0x07#8)]) 0x8120 1 =
    some (0x2A#8, 0x07#8) := by decide
theorem test_or : regAndFlag (withRegs [(1, 0xF0#8), (2, 0x0F#8), (15, 0x07#8)]) 0x8121 1 =
    some (0xFF#8, 0x07#8) := by decide
theorem test_and : regAndFlag (withRegs [(1, 0xF3#8), (2, 0x3C#8), (15, 0x07#8)]) 0x8122 1 =
    some (0x30#8, 0x07#8) := by decide
theorem test_xor : regAndFlag (withRegs [(1, 0xFF#8), (2, 0x0F#8), (15, 0x07#8)]) 0x8123 1 =
    some (0xF0#8, 0x07#8) := by decide
theorem test_add_carry : regAndFlag (withRegs [(1, 0xC8#8), (2, 0x64#8)]) 0x8124 1 = some (0x2C#8, 0x01#8) := by decide
theorem test_add_flag_as_source : regAndFlag (withRegs [(1, 0x10#8), (15, 0xF5#8)]) 0x81F4 1 =
    some (0x05#8, 0x01#8) := by decide
theorem test_sub_borrow : regAndFlag (withRegs [(1, 0x10#8), (2, 0x20#8)]) 0x8125 1 = some (0xF0#8, 0x00#8) := by decide
theorem test_sub_equal : regAndFlag (withRegs [(1, 0x05#8), (2, 0x05#8)]) 0x8125 1 = some (0x00#8, 0x01#8) := by decide
theorem test_subn : regAndFlag (withRegs [(1, 0x10#8), (2, 0x20#8)]) 0x8127 1 = some (0x10#8, 0x01#8) := by decide
theorem test_subn_into_flag : regAndFlag (withRegs [(15, 0xFF#8), (2, 0x02#8)]) 0x8F27 15 =
    some (0x00#8, 0x00#8) := by decide
theorem test_shr : regAndFlag (withRegs [(1, 0xFF#8), (2, 0x55#8)]) 0x8126 1 = some (0x7F#8, 0x01#8) := by decide
theorem test_shr_into_flag : regAndFlag (withRegs [(15, 0x80#8)]) 0x8F26 15 = some (0x00#8, 0x00#8) := by decide
theorem test_shl : regAndFlag (withRegs [(1, 0x81#8), (2, 0x55#8)]) 0x812E 1 = some (0x02#8, 0x01#8) := by decide
theorem test_shl_into_flag : regAndFlag (withRegs [(15, 0x03#8)]) 0x8F2E 15 = some (0x00#8, 0x00#8) := by decide
/-- The last column of 2.3: VF_ALIAS_ORDER = result_last. -/
theorem test_result_last :
    regAndFlag ((resultLast.setReg 15 0x80#8).setReg 2 0x90#8) 0x8F24 15 = some (0x10#8, 0x10#8) ∧
    regAndFlag (resultLast.setReg 15 0xFF#8) 0x8F26 15 = some (0x7F#8, 0x7F#8) := by decide

/-! ### Immediate and compare (2.4) -/

/-- I2 -/
theorem test_loadImm : (stepOn State.reset 0x6FAB).map (fun t => (t.reg 15, t.pc)) = some (0xAB#8, 0x202#16) := by decide
/-- I3 -/
theorem test_addImm : regAndFlag (withRegs [(1, 0xFE#8), (15, 0x07#8)]) 0x7103 1 = some (0x01#8, 0x07#8) := by decide
/-- I7, I8 -/
theorem test_skipEqImm : (stepOn (withRegs [(0, 0x05#8)]) 0x3005).map State.pc = some 0x204#16 ∧
    (stepOn (withRegs [(0, 0x04#8)]) 0x3005).map State.pc = some 0x202#16 := by decide
/-- I9, I10 -/
theorem test_skipNeqImm : (stepOn (withRegs [(0, 0x05#8)]) 0x4005).map State.pc = some 0x202#16 ∧
    (stepOn (withRegs [(0, 0x04#8)]) 0x4005).map State.pc = some 0x204#16 := by decide
/-- I11, I12 -/
theorem test_skipEqReg : (stepOn (withRegs [(1, 0x33#8), (2, 0x33#8)]) 0x5120).map State.pc = some 0x204#16 ∧
    (stepOn (withRegs [(1, 0x33#8), (2, 0x34#8)]) 0x5120).map State.pc = some 0x202#16 := by decide
/-- I14, I15 -/
theorem test_skipNeqReg : (stepOn (withRegs [(1, 0x33#8), (2, 0x34#8)]) 0x9120).map State.pc = some 0x204#16 ∧
    (stepOn (withRegs [(1, 0x33#8), (2, 0x33#8)]) 0x9120).map State.pc = some 0x202#16 := by decide
/-- I18 -/
theorem test_skip_past_the_end : (stepOn { State.reset with pc := 0xFFE#16 } 0x3000).map State.pc =
    some 0x1002#16 := by decide

/-! ### Index register, random -/

/-- X2 -/
theorem test_setIndex : (stepOn (State.reset.setIndex 0x1234#16) 0xAFFF).map State.i = some 0x0FFF#16 := by decide
/-- X4 -/
theorem test_addIndex : (stepOn ((withRegs [(2, 0x01#8), (15, 0x07#8)]).setIndex 0x0FFF#16) 0xF21E).map
    (fun t => (t.i, t.reg 15)) = some (0x1000#16, 0x07#8) := by decide
/-- X6 -/
theorem test_addIndex_wraps : (stepOn ((withRegs [(2, 0xFF#8)]).setIndex 0xFF80#16) 0xF21E).map State.i =
    some 0x007F#16 := by decide
/-- X9 -/
theorem test_indexToGlyph : (stepOn (withRegs [(3, 0x0F#8)]) 0xF329).map State.i = some 0x004B#16 := by decide
/-- X11 -/
theorem test_indexToGlyph_whole_byte : (stepOn (withRegs [(3, 0xFF#8)]) 0xF329).map State.i = some 0x04FB#16 := by decide
/-- Q1 -/
theorem test_random : (stepOn { State.reset with rnd := [0xA7#8, 0x12#8] } 0xC10F).map
    (fun t => (t.reg 1, t.rnd, t.draws)) = some (0x07#8, [0x12#8], 1) := by decide
/-- Q3 -/
theorem test_random_mask_zero_draws : (stepOn { State.reset with rnd := [0xA7#8] } 0xC100).map
    (fun t => (t.reg 1, t.rnd)) = some (0x00#8, []) := by decide

/-! ### Display (2.7) -/

/-- DR14 -/
theorem test_clearScreen : (stepOn { withRegs [(15, 0x01#8)] with fb := Framebuffer.blank.toggle 31 63 } 0x00E0).map
    (fun t => (litAmong [(31, 63), (0, 0)] t, t.reg 15)) = some ([false, false], 0x01#8) := by decide
/-- DR1, DR10: both wraps -/
theorem test_draw_wraps : (stepOn (withSprite [0xE0#8, 0xE0#8] (withRegs [(0, 63#8), (1, 31#8), (15, 0x07#8)])) 0xD012).map
    (fun t => (litAmong [(31, 63), (31, 0), (31, 1), (31, 2), (0, 63), (0, 0), (0, 1), (1, 0)] t, t.reg 15)) =
    some ([true, true, true, false, true, true, true, false], 0x00#8) := by decide
/-- DR13 -/
theorem test_draw_collision : (stepOn { withSprite [0x81#8] State.reset with fb := Framebuffer.blank.toggle 0 0 } 0xD011).map
    (fun t => (litAmong [(0, 0), (0, 7)] t, t.reg 15)) = some ([false, true], 0x01#8) := by decide
/-! ### Keypad (2.8) -/

/-- K1, K5 -/
theorem test_skipIfKeyDown : (stepOn (keysDown [7] (withRegs [(4, 0x07#8)])) 0xE49E).map State.pc = some 0x204#16 ∧
    (stepOn (keysDown [7] (withRegs [(4, 0x17#8)])) 0xE49E).map State.pc = some 0x202#16 := by decide
/-- K4, K6 -/
theorem test_skipIfKeyUp : (stepOn (keysDown [7] (withRegs [(4, 0x07#8)])) 0xE4A1).map State.pc = some 0x202#16 ∧
    (stepOn (keysDown [7] (withRegs [(4, 0x17#8)])) 0xE4A1).map State.pc = some 0x204#16 := by decide
/-- K9 -/
theorem test_waitKey_lowest : (stepOn (keysDown [9, 3] State.reset) 0xF30A).map (fun t => (t.reg 3, t.pc)) =
    some (0x03#8, 0x202#16) := by decide
/-- K8 -/
theorem test_waitKey_none : (stepOn (withRegs [(3, 0x55#8)]) 0xF30A).map (fun t => (t.reg 3, t.pc)) =
    some (0x55#8, 0x200#16) := by decide

/-! ### Timers (2.9) -/

/-- T1 -/
theorem test_readDelay : (stepOn (State.reset.setDelayTimer 0x3C#8) 0xF207).map (fun t => (t.reg 2, t.delayTimer)) =
    some (0x3C#8, 0x3C#8) := by decide
/-- T2 -/
theorem test_writeDelay : (stepOn (withRegs [(2, 0x3C#8)]) 0xF215).map (fun t => (t.delayTimer, t.soundTimer)) =
    some (0x3C#8, 0x00#8) := by decide
/-- T3 -/
theorem test_writeSound : (stepOn (withRegs [(5, 0x02#8)]) 0xF518).map (fun t => (t.delayTimer, t.soundTimer)) =
    some (0x00#8, 0x02#8) := by decide

/-! ### Memory block (2.10) -/

/-- B1 -/
theorem test_storeBCD : (stepOn ((withRegs [(2, 0x9C#8)]).setIndex 0x300#16) 0xF233).map
    (fun t => (t.bytesAt 0x300 4, t.i)) = some ([0x01#8, 0x05#8, 0x06#8, 0x00#8], 0x300#16) := by decide
/-- B8 -/
theorem test_storeBCD_fault : faultOn ((withRegs [(2, 0x7B#8)]).setIndex 0xFFE#16) 0xF233 =
    some (.memoryFault 0x1000) := by decide
/-- B9 -/
theorem test_storeRegs : (stepOn ((withRegs [(0, 0x11#8), (1, 0x22#8), (2, 0x33#8), (3, 0x44#8)]).setIndex 0x400#16) 0xF255).map
    (fun t => (t.bytesAt 0x400 4, t.i)) = some ([0x11#8, 0x22#8, 0x33#8, 0x00#8], 0x400#16) := by decide
/-- B14 -/
theorem test_storeRegs_fault : faultOn (State.reset.setIndex 0xFFFF#16) 0xF155 = some (.memoryFault 0xFFFF) := by decide
/-- B15 -/
theorem test_loadRegs : (stepOn (((withRegs [(2, 0x77#8)]).setIndex 0x400#16).storeBytes 0x400 [0xAA#8, 0xBB#8]) 0xF165).map
    (fun t => (t.reg 0, t.reg 1, t.reg 2, t.i)) = some (0xAA#8, 0xBB#8, 0x77#8, 0x400#16) := by decide
/-- B17 -/
theorem test_loadRegs_fault : faultOn (State.reset.setIndex 0xFFF#16) 0xF165 = some (.memoryFault 0x1000) := by decide

/-! ### The step and the host operations (2.11) -/

/-- H6 -/
theorem test_step_after_reset : faultOf (step State.reset) = some (.unknownOpcode 0x0000#16) := by decide
theorem test_fetch_faults : faultOf (step { State.reset with pc := 0xFFF#16 }) = some (.memoryFault 0x1000) ∧
    faultOf (step { State.reset with pc := 0x1002#16 }) = some (.memoryFault 0x1002) := by decide
theorem test_withFetchWord_replaces_an_unfetchable_pc :
    (stepOn { State.reset with pc := 0xFFF#16, schedule := [.tick] } 0x6005).map (fun t => (t.pc, t.reg 0)) =
    some (0x202#16, 0x05#8) := by decide
/-- T4, T6 -/
theorem test_tick : (nextOf (step { State.reset with delayTimer := 0x02#8, schedule := [.tick] })).map
    (fun t => (t.delayTimer, t.soundTimer, t.schedule)) = some (0x01#8, 0x00#8, []) := by decide
theorem test_sound_edge :
    soundEdge { State.reset with soundTimer := 0x01#8 } (hostTick { State.reset with soundTimer := 0x01#8 }) = true := by
  decide
/-- H7, H8 -/
theorem test_setKey : (hostSetKey 3 true State.reset).lowestPressed = some 3 ∧
    (hostSetKey 255 true State.reset).lowestPressed = none := by decide
/-- H4 -/
theorem test_load : (nextOf (hostLoad [0x60#8, 0x05#8, 0x00#8] State.reset)).map (fun t => (t.byteAt 0x200, t.byteAt 0x201)) =
    some (0x60#8, 0x05#8) := by decide
/-- H5 -/
theorem test_reset_erases_the_image : (hostReset (State.reset.storeBytes 0x200 [0x60#8])).byteAt 0x200 = 0x00#8 := by decide
theorem test_run_ends_at_a_self_jump :
    runUntil atSelfJump 2 (State.reset.storeBytes 0x200 [0x12#8, 0x00#8]) =
      .ended (State.reset.storeBytes 0x200 [0x12#8, 0x00#8]) := by decide

/-! ### Witnesses: a state and operands that meet the hypotheses of each statement, clause by clause -/

/-- The reset state with `pc` at `a` and bytes there. -/
def at_ (a : Word) (bs : List Byte) : State := { State.reset.storeBytes a.toNat bs with pc := a }

theorem witness_DecodeOfEncodedBytesIsTheInstruction :
    (Instr.draw 15 15 15).wellFormed = true ∧ (Instr.jump 4095).wellFormed = true ∧ Instr.ret.wellFormed = true := by decide
theorem witness_DecodedInstructionEncodesBack :
    decode 0x8FF6#16 = .instr (.shr 15) ∧ (Instr.shr 15).op = 15 ∧ decode 0x812E#16 = .instr (.shl 1) ∧
    (Instr.shl 1).op = 17 ∧ decode 0xD12F#16 = .instr (.draw 1 2 15) ∧
    ¬ ((Instr.draw 1 2 15).op = 15 ∨ (Instr.draw 1 2 15).op = 17) := by decide
theorem witness_DecoderFollowsTheOpcodeMap :
    decode 0xFF65#16 = .instr (.loadRegs 15) ∧ (∃ r ∈ opcodeMap, r.matches 0xFF65#16 = true) ∧
    ∃ r ∈ opcodeMap, ∃ r' ∈ opcodeMap, r.matches 0x00EE#16 = true ∧ r'.matches 0x00EE#16 = true := by decide
theorem witness_IllegalWordsAreExactly_low :
    decode 0x00E1#16 = .unknown 0x00E1#16 ∧ decode 0x5FF1#16 = .unknown 0x5FF1#16 ∧
    decode 0x8128#16 = .unknown 0x8128#16 ∧ decode 0x8FFF#16 = .unknown 0x8FFF#16 := by decide
theorem witness_IllegalWordsAreExactly_high :
    decode 0x9FF1#16 = .unknown 0x9FF1#16 ∧ decode 0xE09F#16 = .unknown 0xE09F#16 ∧
    decode 0xF066#16 = .unknown 0xF066#16 ∧ decode 0xFFFF#16 = .unknown 0xFFFF#16 := by decide

/-- At the last address a fetch can start from; and the same with a `Step` scheduled. -/
theorem witness_StepRunsTheDecodedInstruction :
    (at_ 4094#16 [0x60#8, 0x05#8]).pc.toNat ≤ 4094 ∧
    decode (wordOfBytes ((at_ 4094#16 [0x60#8, 0x05#8]).byteAt 4094) ((at_ 4094#16 [0x60#8, 0x05#8]).byteAt 4095)) =
      .instr (.loadImm 0 0x05#8) ∧
    (at_ 4094#16 [0x60#8, 0x05#8]).schedule = [] ∧
    { at_ 4094#16 [0x60#8, 0x05#8] with schedule := [.step, .tick] }.schedule = .step :: [.tick] := by decide
theorem witness_FetchIsBigEndianAndChecked :
    (at_ 4094#16 []).pc.toNat ≤ 4094 ∧ (at_ 4095#16 []).schedule = [] ∧ (at_ 4095#16 []).pc.toNat = 4095 ∧
    (at_ 4096#16 []).schedule = [] ∧ 4096 ≤ (at_ 4096#16 []).pc.toNat ∧ 4096 ≤ (at_ 0xFFFF#16 []).pc.toNat := by decide
theorem witness_UnknownOpcodeCarriesTheFetchedWord :
    (at_ 4094#16 [0xF0#8, 0x75#8]).schedule = [] ∧ (at_ 4094#16 [0xF0#8, 0x75#8]).pc.toNat ≤ 4094 ∧
    decode (wordOfBytes ((at_ 4094#16 [0xF0#8, 0x75#8]).byteAt 4094) ((at_ 4094#16 [0xF0#8, 0x75#8]).byteAt 4095)) =
      .unknown 0xF075#16 := by decide
theorem witness_StepPerformsTheScheduledOperation :
    { State.reset with schedule := [.tick, .step] }.schedule = .tick :: [.step] := rfl
theorem witness_ExecuteFaultsAreExactly_stack :
    exec (.call 0x300) { State.reset with sp := 16 } = .fault .stackOverflow ∧
    exec .ret State.reset = .fault .stackUnderflow := ⟨rfl, rfl⟩
/-- Draw at 4095 with two rows, StoreBCD at 4094, StoreRegs at 4096, LoadRegs at 0xFFFF. -/
theorem witness_ExecuteFaultsAreExactly_memory :
    exec (.draw 0 0 2) (State.reset.setIndex 4095#16) = .fault (.memoryFault 4096) ∧
    exec (.storeBCD 0) (State.reset.setIndex 4094#16) = .fault (.memoryFault 4096) ∧
    exec (.storeRegs 0) (State.reset.setIndex 4096#16) = .fault (.memoryFault 4096) ∧
    exec (.loadRegs 15) (State.reset.setIndex 0xFFFF#16) = .fault (.memoryFault 0xFFFF) := ⟨rfl, rfl, rfl, rfl⟩
/-- A faulting `Step`; an operation, a `Load` over the offending bytes, after which the `Step` goes otherwise; and
operations without `Load` and `Reset`. -/
theorem witness_FaultedStepFaultsUntilLoadOrReset :
    perform .step State.reset = .fault (.unknownOpcode 0x0000#16) ∧
    (∃ t, perform (.load [0x60#8, 0x05#8]) State.reset = .next t ∧
      faultOf (perform .step t) ≠ some (.unknownOpcode 0x0000#16)) ∧
    HostOp.reset ∉ [.tick, .step, .setKey 16 true, .readTimers, .step] ∧
    ∀ image, HostOp.load image ∉ [.tick, .step, .setKey 16 true, .readTimers, .step] :=
  ⟨rfl, ⟨_, rfl, by decide⟩, by decide, by simp⟩

theorem witness_JumpSetsPcAndNothingElse : 0 < 4096 ∧ 4095 < 4096 := by decide
theorem witness_CallPushesTheNextAddress : 4095 < 4096 ∧ { State.reset with sp := 15 }.sp.val < 16 ∧
    { State.reset with sp := 16 }.sp.val = 16 := by decide
theorem witness_ReturnPopsTheLastPush : 0 < { State.reset with sp := 1 }.sp.val ∧ 0 < { State.reset with sp := 16 }.sp.val ∧
    State.reset.sp.val = 0 := by decide
theorem witness_ReturnUndoesCall : { State.reset with sp := 15 }.sp.val < 16 ∧
    ∃ t t' : State, exec (.call 0x300) { State.reset with sp := 15 } = .next t ∧ t'.sp = t.sp ∧ t'.stack = t.stack :=
  ⟨by decide, _, _, rfl, rfl, rfl⟩
theorem witness_JumpPlusV0AddsTheFirstRegister : 4095 < 4096 := by decide

theorem witness_AddAndSubtractWithFlag : (14 : Reg) ≠ 15 ∧ (0 : Reg) ≠ 15 := by decide
theorem witness_ShiftsWithTheBitShiftedOut : (14 : Reg) ≠ 15 := by decide
theorem witness_FlagSurvivesInTheFlagRegister : State.reset.params.vfAliasOrder = .flagLast := by decide
theorem witness_ResultSurvivesWhenWrittenLast : resultLast.params.vfAliasOrder = .resultLast := by decide
theorem witness_OnlyTheSixWriteTheFlag_six : State.reset.params.vfAliasOrder = .flagLast ∧
    (15 : Reg) ∉ (controls (.addReg 0 15)).vwr ∧ (Instr.addReg 0 15).op = 13 ∧ (Instr.draw 0 1 0).op = 22 ∧
    (∃ t, exec (.addReg 0 15) State.reset = .next t) ∧ ∃ t, exec (.draw 0 1 0) State.reset = .next t :=
  ⟨rfl, by decide, rfl, rfl, ⟨_, rfl⟩, _, rfl⟩
theorem witness_OnlyTheSixWriteTheFlag_other :
    (Instr.loadImm 14 0xFF#8).op = 7 ∧ (15 : Reg) ∉ (controls (.loadImm 14 0xFF#8)).vwr ∧
    (15 : Reg) ∉ (controls (.loadRegs 14)).vwr ∧ (∃ t, exec (.loadImm 14 0xFF#8) State.reset = .next t) ∧
    ∃ t, exec (.loadRegs 14) State.reset = .next t :=
  ⟨rfl, by decide, by decide, ⟨_, rfl⟩, _, rfl⟩
theorem witness_CompareAndSkip : (0x5001#16 : Word).toNat / 4096 = 5 ∧ (0x9FFF#16 : Word).toNat / 4096 = 9 ∧
    (0x5001#16 : Word).toNat % 16 ≠ 0 ∧ (0x9FFF#16 : Word).toNat % 16 ≠ 0 := by decide

/-- The last key pressed; the first byte that names no key, with all of them pressed; the last key not pressed. -/
theorem witness_KeypadSkips :
    (∃ k : Fin 16, k.val = ((keysDown [15] (withRegs [(4, 0x0F#8)])).reg 4).toNat ∧
      (keysDown [15] (withRegs [(4, 0x0F#8)])).keys[k.val] = true) ∧
    (∀ k : Fin 16, k.val = ((keysDown [0, 15] (withRegs [(4, 0x10#8)])).reg 4).toNat →
      (keysDown [0, 15] (withRegs [(4, 0x10#8)])).keys[k.val] = false) ∧
    (∀ k : Fin 16, k.val = ((keysDown [14] (withRegs [(4, 0x0F#8)])).reg 4).toNat →
      (keysDown [14] (withRegs [(4, 0x0F#8)])).keys[k.val] = false) := by decide
theorem witness_WaitKeyRepeatsUntilAKey :
    (∀ k : Fin 16, State.reset.keys[k.val] = false) ∧
    ((keysDown [15, 9] State.reset).keys[9] = true ∧
      ∀ j : Fin 16, j.val < 9 → (keysDown [15, 9] State.reset).keys[j.val] = false) ∧
    ((keysDown [15] State.reset).keys[15] = true ∧
      ∀ j : Fin 16, j.val < 15 → (keysDown [15] State.reset).keys[j.val] = false) := by decide
theorem witness_SetIndexLoadsTheAddress : 4095 < 4096 := by decide
theorem witness_RandomMasksOneDraw :
    { State.reset with rnd := [0xA7#8, 0x12#8] }.rnd = 0xA7#8 :: [0x12#8] ∧ State.reset.rnd = [] := by decide
theorem witness_OnlyRandomUsesTheRandomPort : (Instr.readDelay 0).op ≠ 21 ∧ (Instr.draw 0 0 1).op ≠ 21 := by decide

/-- Fifteen rows that end at the last byte of RAM; no rows, with `i` outside RAM. -/
theorem witness_DrawFlipsTheSpriteAndReportsCollision :
    15 < 16 ∧ (State.reset.setIndex 4081#16).i.toNat + 15 ≤ 4096 ∧ 0 < 16 ∧ (State.reset.setIndex 0xFFFF#16).i.toNat = 65535 := by
  decide
theorem witness_DrawingTwiceRestoresTheFramebuffer :
    (withSprite [0x80#8] State.reset).i.toNat + 1 ≤ 4096 ∧
    ∃ t, exec (.draw 0 0 1) (withSprite [0x80#8] State.reset) = .next t ∧
      t.reg 0 = (withSprite [0x80#8] State.reset).reg 0 ∧
      ∃ (py : Fin 32) (px : Fin 64), (withSprite [0x80#8] State.reset).fb.pixel py px = false ∧ t.fb.pixel py px = true :=
  ⟨by decide, _, rfl, rfl, 0, 0, rfl, rfl⟩

theorem witness_StoreBCDWritesTheDigits : (State.reset.setIndex 4093#16).i.toNat + 3 ≤ 4096 ∧
    4096 < (State.reset.setIndex 4094#16).i.toNat + 3 := by decide
theorem witness_StoreRegsWritesTheRegisters : (State.reset.setIndex 4080#16).i.toNat + (15 : Reg).val < 4096 ∧
    (State.reset.setIndex 4095#16).i.toNat + (0 : Reg).val < 4096 := by decide
theorem witness_LoadRegsReadsTheRegisters : (State.reset.setIndex 4080#16).i.toNat + (15 : Reg).val < 4096 ∧
    (State.reset.setIndex 0#16).i.toNat + (4 : Reg).val < 4096 := by decide
theorem witness_BlockAccessFaultsAtTheLowestAddress :
    2 ≤ 2 ∧ 4096 ≤ (State.reset.setIndex 4094#16).i.toNat + 2 ∧
    1 ≤ (1 : Reg).val ∧ 4096 ≤ (State.reset.setIndex 4095#16).i.toNat + 1 ∧
    0 ≤ (0 : Reg).val ∧ 4096 ≤ (State.reset.setIndex 0xFFFF#16).i.toNat + 0 := by decide
theorem witness_LoadRegsRestoresWhatStoreRegsSaved :
    (State.reset.setIndex 4080#16).i.toNat + (15 : Reg).val < 4096 ∧
    ∃ t t' : State, exec (.storeRegs 15) (State.reset.setIndex 4080#16) = .next t ∧ Part.same .ram t t' ∧
      t'.i = (State.reset.setIndex 4080#16).i ∧ t'.reg 0 = 0xFF#8 :=
  ⟨by decide, _, (withRegs [(0, 0xFF#8)]).setIndex 4080#16, rfl, fun _ => rfl, rfl, rfl⟩
theorem witness_StoredBytesAreFetchedAtOnce :
    1 ≤ (1 : Reg).val ∧ ((withRegs [(0, 0x60#8), (1, 0x05#8)]).setIndex 4094#16).i.toNat + (1 : Reg).val < 4096 ∧
    ∃ t u : State, exec (.storeRegs 1) ((withRegs [(0, 0x60#8), (1, 0x05#8)]).setIndex 4094#16) = .next t ∧
      Part.same .ram t u ∧ u.pc = ((withRegs [(0, 0x60#8), (1, 0x05#8)]).setIndex 4094#16).i :=
  ⟨by decide, by decide, _, at_ 4094#16 [0x60#8, 0x05#8], rfl, fun _ => rfl, rfl⟩

/-- One instruction that completes and whose row leaves everything alone, and one of each kind of write. -/
theorem witness_ControlTableBoundsEveryEffect :
    (∃ t, exec (.skipEqImm 0 0x00#8) State.reset = .next t) ∧ (controls (.skipEqImm 0 0x00#8)).stk = .idle ∧
    (controls (.skipEqImm 0 0x00#8)).indexWrite = false ∧ (controls (.skipEqImm 0 0x00#8)).fb = .idle ∧
    (controls (.skipEqImm 0 0x00#8)).tmr ≠ .writeDelay ∧ (controls (.skipEqImm 0 0x00#8)).tmr ≠ .writeSound ∧
    (controls (.skipEqImm 0 0x00#8)).rnd = false ∧ (∃ t, exec (.storeRegs 15) State.reset = .next t) ∧
    ∃ t, exec (.draw 0 0 15) State.reset = .next t :=
  ⟨⟨_, rfl⟩, rfl, rfl, rfl, by decide, by decide, rfl, ⟨_, rfl⟩, _, rfl⟩
theorem witness_PcSourceDecidesTheNextPc :
    ((∃ t, exec (.move 0 1) State.reset = .next t) ∧ (controls (.move 0 1)).pcsel = .seq) ∧
    ((∃ t, exec (.skipNeqReg 0 1) State.reset = .next t) ∧ (controls (.skipNeqReg 0 1)).pcsel = .skip) ∧
    ((∃ t, exec (.waitKey 0) State.reset = .next t) ∧ (controls (.waitKey 0)).pcsel = .hold) ∧
    ((∃ t, exec .ret { State.reset with sp := 1 } = .next t) ∧ (controls .ret).pcsel = .pop) ∧
    ((∃ t, exec (.call 0x300) State.reset = .next t) ∧ (controls (.call 0x300)).pcsel = .addr) ∧
    ((∃ t, exec (.jumpPlusV0 4095) State.reset = .next t) ∧ (controls (.jumpPlusV0 4095)).pcsel = .addrPlusV0) :=
  ⟨⟨⟨_, rfl⟩, rfl⟩, ⟨⟨_, rfl⟩, rfl⟩, ⟨⟨_, rfl⟩, rfl⟩, ⟨⟨_, rfl⟩, rfl⟩, ⟨⟨_, rfl⟩, rfl⟩, ⟨_, rfl⟩, rfl⟩
theorem witness_OnlyDrawObservesTheFramebuffer : Instr.clearScreen.op ≠ 22 ∧ (Instr.waitKey 0).op ≠ 22 := by decide
theorem witness_OthersDoNotLookAtRam :
    (controls (.skipEqReg 0 0)).xfault ≠ .memoryFault ∧ (controls .ret).xfault ≠ .memoryFault := by decide
theorem witness_FixedPointsOfStep :
    ((at_ 4094#16 [0x1F#8, 0xFE#8]).schedule = [] ∧ atSelfJump (at_ 4094#16 [0x1F#8, 0xFE#8]) = true) ∧
    (at_ 0x200#16 [0xF3#8, 0x0A#8]).schedule = [] ∧ atIdleWaitKey (at_ 0x200#16 [0xF3#8, 0x0A#8]) = true := by decide
theorem witness_EqualRamIsEqualData :
    Memory.wf defaultFontset (Memory.write defaultFontset [] 4094 [0xAA#8, 0xBB#8]) ∧
    Memory.wf defaultFontset (Memory.set defaultFontset (Memory.set defaultFontset [] 4095 0xBB#8) 4094 0xAA#8) := by
  decide

/-- A step at the largest `pc` that fetches: a taken skip from 4094; and a host operation scheduled. -/
theorem witness_StepKeepsTheInvariant :
    Inv (at_ 4094#16 [0x30#8, 0x00#8]) ∧ (∃ t, step (at_ 4094#16 [0x30#8, 0x00#8]) = .next t) ∧
    Inv { State.reset with schedule := [.load [0x60#8]] } ∧
    ∃ t, step { State.reset with schedule := [.load [0x60#8]] } = .next t :=
  ⟨⟨by decide, by decide, by decide⟩, ⟨_, rfl⟩, ⟨by decide, by decide, by decide⟩, _, rfl⟩
theorem witness_ReachableStatesMeetTheInvariant :
    ∃ t, t ≠ State.reset ∧
      Reaches { State.reset with schedule := [.load [0xC0#8, 0xFF#8], .step], rnd := [0xA7#8], draws := 0 } t :=
  ⟨_, by decide, .more _ _ (.more _ _ .start rfl) rfl⟩

theorem witness_SetKeyWritesOneKey :
    (∀ (index : Nat) (pressed : Bool), HostOp.step ≠ .setKey index pressed) ∧ HostOp.step ≠ .reset ∧
    ∃ t, perform .step (at_ 0x200#16 [0x60#8, 0x05#8]) = .next t :=
  ⟨fun _ _ => nofun, nofun, _, rfl⟩
theorem witness_NoStepChangesTheParameters : ∃ t, step { resultLast with schedule := [.reset] } = .next t := ⟨_, rfl⟩
theorem witness_LoadInstallsTheImage :
    (List.replicate 3584 0x00#8).length ≤ 3584 ∧ 3584 < (List.replicate 3585 0x00#8).length :=
  ⟨Nat.le_of_eq List.length_replicate, Nat.lt_of_lt_of_eq (by decide) List.length_replicate.symm⟩
theorem witness_ExecutionBeginsWithTheImage :
    State.reset.schedule = [] ∧ [0x60#8, 0x05#8, 0x00#8, 0x05#8].length ≤ 3584 ∧
    decodeBytes [0x60#8, 0x05#8, 0x00#8, 0x05#8] = .instr (.loadImm 0 0x05#8) [0x00#8, 0x05#8] :=
  ⟨rfl, by decide, rfl⟩

end Sys2Proof.Machine.Test
end

section
/-! PROOFS, shared rules. Frames as a layer of their own: what `OnlyChanges` composes to, what the register writes and
the advance of `pc` leave alone; then the flags and results of group 8 as numbers. -/

namespace Sys2Proof.Machine

/-! ### Frames compose -/

theorem Part.same_refl (p : Part) (s : State) : p.same s s := by
  cases p <;> simp [Part.same]

theorem Part.same_trans {p : Part} {s t u : State} (hst : p.same s t) (htu : p.same t u) : p.same s u := by
  cases p <;> simp_all [Part.same]

theorem OnlyChanges.refl (parts : List Part) (s : State) : OnlyChanges parts s s := fun p _ => p.same_refl s

theorem OnlyChanges.trans {parts : List Part} {s t u : State} (hst : OnlyChanges parts s t)
    (htu : OnlyChanges parts t u) : OnlyChanges parts s u :=
  fun p hp => Part.same_trans (hst p hp) (htu p hp)

/-- Advancing `pc` changes no other part (10_state.md R30). -/
theorem State.onlyChanges_advance (parts : List Part) (s : State) : OnlyChanges parts s s.advance := by
  intro p _
  cases p <;> simp [Part.same]

/-- A register write changes the registers only (10_state.md R11). -/
theorem State.onlyChanges_setReg (s : State) (k : Reg) (b : Byte) : OnlyChanges [.regs] s (s.setReg k b) := by
  intro p hp
  cases p with
  | regs => exact absurd List.mem_cons_self hp
  | _ => simp [Part.same]

/-- Writing a result and a flag is two register writes, in whichever order (10_state.md R31). -/
theorem State.onlyChanges_writeResultAndFlag (o : VfAliasOrder) (s : State) (x : Reg) (r : Byte) (f : Bool) :
    OnlyChanges [.regs] s (s.writeResultAndFlag o x r f) :=
  (s.onlyChanges_setReg _ _).trans (State.onlyChanges_setReg _ _ _)

/-! ### Flags and results of group 8 as numbers -/

theorem flagByte_carryOut_toNat (a b : Byte) :
    (flagByte (carryOut a b)).toNat = if 255 < a.toNat + b.toNat then 1 else 0 := by
  simp [flagByte_toNat, carryOut]

theorem flagByte_noBorrow_toNat (a b : Byte) :
    (flagByte (noBorrow a b)).toNat = if b.toNat ≤ a.toNat then 1 else 0 := by
  simp [flagByte_toNat, noBorrow]

theorem flagByte_shiftedOutRight_toNat (a : Byte) : (flagByte (shiftedOutRight a)).toNat = a.toNat % 2 := by
  have := Nat.mod_two_eq_zero_or_one a.toNat
  simp only [flagByte_toNat, shiftedOutRight, BitVec.getLsbD, Nat.testBit_zero, decide_eq_true_eq]
  split <;> omega

theorem flagByte_shiftedOutLeft_toNat (a : Byte) : (flagByte (shiftedOutLeft a)).toNat = a.toNat / 128 := by
  have := a.isLt
  simp only [flagByte_toNat, shiftedOutLeft, BitVec.getLsbD, Nat.testBit_eq_decide_div_mod_eq, decide_eq_true_eq]
  split <;> omega

theorem toNat_byte_sub (a b : Byte) : (a - b).toNat = (a.toNat + 256 - b.toNat) % 256 := by
  have := b.isLt
  rw [BitVec.toNat_sub]
  omega

theorem toNat_byte_shiftRight_one (a : Byte) : (a >>> 1).toNat = a.toNat / 2 := by
  simp [Nat.shiftRight_eq_div_pow]

theorem toNat_byte_shiftLeft_one (a : Byte) : (a <<< 1).toNat = a.toNat * 2 % 256 := by
  simp [Nat.shiftLeft_eq]

end Sys2Proof.Machine
end

section
/-! PROOFS of O25 and O59: the flag writers of group 8 with destination `v[0xF]`, under each VF_ALIAS_ORDER
(00_scope.md R5, 10_state.md R31). The five differ only in the result and the flag they compute. -/

namespace Sys2Proof.Machine

section destination

variable {i : Instr} {s : State} {r : Byte} {f : Bool} {n : Nat}

/-- An instruction that writes a result and a flag, both to `v[0xF]`, leaves there the one written last, and changes
nothing else. -/
theorem completes_flagReg_destination
    (hexec : exec i s = .next (s.writeResultAndFlag s.params.vfAliasOrder flagReg r f).advance)
    (hlast : (if s.params.vfAliasOrder = .flagLast then flagByte f else r).toNat = n) :
    Completes i s fun t =>
      (t.reg 15).toNat = n ∧ RegsKeptBut [15] s t ∧ t.pc = s.pc + 2#16 ∧ OnlyChanges [.regs] s t := by
  refine ⟨_, hexec, ?_, fun k hk => ?_, rfl,
    (s.onlyChanges_writeResultAndFlag _ _ _ _).trans (State.onlyChanges_advance _ _)⟩
  · simpa [reg_writeResultAndFlag] using hlast
  · have hne : k ≠ flagReg := by simpa using hk
    simp [reg_writeResultAndFlag, hne]

theorem completes_flagReg_of_flagLast (ho : s.params.vfAliasOrder = .flagLast)
    (hexec : exec i s = .next (s.writeResultAndFlag s.params.vfAliasOrder flagReg r f).advance)
    (hflag : (flagByte f).toNat = n) :
    Completes i s fun t =>
      (t.reg 15).toNat = n ∧ RegsKeptBut [15] s t ∧ t.pc = s.pc + 2#16 ∧ OnlyChanges [.regs] s t :=
  completes_flagReg_destination hexec (by rwa [if_pos ho])

theorem completes_flagReg_of_resultLast (ho : s.params.vfAliasOrder = .resultLast)
    (hexec : exec i s = .next (s.writeResultAndFlag s.params.vfAliasOrder flagReg r f).advance)
    (hresult : r.toNat = n) :
    Completes i s fun t =>
      (t.reg 15).toNat = n ∧ RegsKeptBut [15] s t ∧ t.pc = s.pc + 2#16 ∧ OnlyChanges [.regs] s t :=
  completes_flagReg_destination hexec (by rwa [ho, if_neg (by decide)])

end destination

/-- Settles O25: with the flag written last, `v[0xF]` holds each instruction's flag of the old values. -/
theorem flagSurvivesInTheFlagRegister : Obligations.FlagSurvivesInTheFlagRegister := fun s y ho =>
  ⟨completes_flagReg_of_flagLast ho (exec_addReg flagReg y s) (flagByte_carryOut_toNat _ _),
   completes_flagReg_of_flagLast ho (exec_subReg flagReg y s) (flagByte_noBorrow_toNat _ _),
   completes_flagReg_of_flagLast ho (exec_subnReg flagReg y s) (flagByte_noBorrow_toNat _ _),
   completes_flagReg_of_flagLast ho (exec_shr flagReg s) (flagByte_shiftedOutRight_toNat _),
   completes_flagReg_of_flagLast ho (exec_shl flagReg s) (flagByte_shiftedOutLeft_toNat _)⟩

/-- Settles O59: with the result written last, `v[0xF]` holds each instruction's result of the old values. -/
theorem resultSurvivesWhenWrittenLast : Obligations.ResultSurvivesWhenWrittenLast := fun s y ho =>
  ⟨completes_flagReg_of_resultLast ho (exec_addReg flagReg y s) (BitVec.toNat_add _ _),
   completes_flagReg_of_resultLast ho (exec_subReg flagReg y s) (toNat_byte_sub _ _),
   completes_flagReg_of_resultLast ho (exec_subnReg flagReg y s) (toNat_byte_sub _ _),
   completes_flagReg_of_resultLast ho (exec_shr flagReg s) (toNat_byte_shiftRight_one _),
   completes_flagReg_of_resultLast ho (exec_shl flagReg s) (toNat_byte_shiftLeft_one _)⟩

end Sys2Proof.Machine
end

section
/-! PROOFS of O60, with the inversion of every operation that can stop: what is known when it answers a next state. -/

namespace Sys2Proof.Machine

/-! ### When an operation completes -/

/-- An access that completes had all its addresses in RAM and did its effect (20_memory.md R42). -/
theorem accessRam_eq_next_iff (a n : Nat) (e : Result) (t : State) :
    accessRam a n e = .next t ↔ (n = 0 ∨ a + n ≤ 4096) ∧ e = .next t := by
  rcases accessRam_cases a n e with ⟨hin, heq⟩ | ⟨hout, heq⟩
  · simp [heq, hin]
  · rw [heq]
    exact ⟨nofun, fun ⟨hin, _⟩ => absurd hin (by omega)⟩

/-- Call completes with fewer than 16 return addresses held (40_control_flow.md R102). -/
theorem exec_call_eq_next_iff (addr : Nat) (s t : State) :
    exec (.call addr) s = .next t ↔ ∃ h : s.sp.val < 16,
      State.setPc { s with stack := s.stack.set s.sp.val s.npc h, sp := ⟨s.sp.val + 1, by omega⟩ }
        (zextAddr addr) = t := by
  by_cases h : s.sp.val < 16
  · simp [exec_call_next addr s h, h]
  · simp [exec_call_fault addr s (by omega), h]

/-- Return completes with a return address held (40_control_flow.md R103). -/
theorem exec_ret_eq_next_iff (s t : State) :
    exec .ret s = .next t ↔ ∃ h : 0 < s.sp.val,
      State.setPc { s with sp := ⟨s.sp.val - 1, by omega⟩ } (s.stack[s.sp.val - 1]'(by omega)) = t := by
  by_cases h : 0 < s.sp.val
  · simp [exec_ret_next s h, h]
  · simp [exec_ret_fault s (by omega), h]

/-- WaitKey always completes: where it is, or with the lowest pressed key in its register (46_keypad.md R167). -/
theorem exec_waitKey_cases (x : Reg) (s : State) :
    exec (.waitKey x) s = .next s ∨
      ∃ k, s.lowestPressed = some k ∧ exec (.waitKey x) s = .next (s.setReg x (BitVec.ofNat 8 k)).advance := by
  cases h : s.lowestPressed with
  | none => exact .inl (exec_waitKey_none x s h)
  | some k => exact .inr ⟨k, rfl, exec_waitKey_some x s h⟩

/-- A cycle that completes executed an instruction (10_state.md R30). -/
theorem exists_exec_of_cycle_eq_next {s t : State} (h : cycle s = .next t) : ∃ i, exec i s = .next t := by
  rcases cycle_cases s with ⟨_, hf⟩ | ⟨_, ⟨_, _, hu⟩ | ⟨i, _, hi⟩⟩
  · simp [hf] at h
  · simp [hu] at h
  · exact ⟨i, hi ▸ h⟩

/-- Load completes with an image that fits, and stores it (70_reset_and_hazards.md R245). -/
theorem hostLoad_eq_next_iff (image : List Byte) (s t : State) :
    hostLoad image s = .next t ↔ image.length ≤ Config.maxImage ∧ s.storeBytes Config.programOrigin image = t := by
  by_cases h : image.length ≤ Config.maxImage
  · simp [hostLoad, complete, h, Nat.not_lt.2 h]
  · simp [hostLoad, raise, h, Nat.lt_of_not_le h]

/-! ### The parameters -/

/-- No instruction changes the parameters. -/
theorem exec_keeps_params {i : Instr} {s t : State} (h : exec i s = .next t) : t.params = s.params := by
  cases i with
  | call addr => obtain ⟨_, rfl⟩ := (exec_call_eq_next_iff addr s t).1 h; rfl
  | ret => obtain ⟨_, rfl⟩ := (exec_ret_eq_next_iff s t).1 h; rfl
  | waitKey x =>
    rcases exec_waitKey_cases x s with hx | ⟨_, _, hx⟩
    · cases hx.symm.trans h; rfl
    · cases hx.symm.trans h; rfl
  | draw _ _ _ | storeBCD _ | storeRegs _ | loadRegs _ =>
    obtain ⟨_, ⟨⟩⟩ := (accessRam_eq_next_iff _ _ _ t).1 h
    rfl
  | _ =>
    -- every other arm is one unconditional update of the state
    cases h
    simp

/-- No host operation changes the parameters: Step by its instruction, Load by storing into RAM, Reset because it takes
them over (70_reset_and_hazards.md R242). -/
theorem perform_keeps_params {op : HostOp} {s t : State} (h : perform op s = .next t) : t.params = s.params := by
  cases op with
  | step =>
    obtain ⟨i, hi⟩ := exists_exec_of_cycle_eq_next h
    exact exec_keeps_params hi
  | load image => obtain ⟨_, rfl⟩ := (hostLoad_eq_next_iff image s t).1 h; rfl
  | tick | setKey _ _ | reset | readFramebuffer | readTimers => cases h; rfl

/-- Taking the next operation off the schedule leaves the parameters. -/
@[simp] theorem State.nextOp_params (s : State) : s.nextOp.2.params = s.params := by
  cases h : s.schedule with
  | nil => rw [State.nextOp_nil h]
  | cons op rest => rw [State.nextOp_cons h]

/-- Settles O60: a step is a host operation, and none changes the parameters. -/
theorem noStepChangesTheParameters : Obligations.NoStepChangesTheParameters := fun s t h =>
  calc
    t.params = s.nextOp.2.params := perform_keeps_params h
    _ = s.params := s.nextOp_params

end Sys2Proof.Machine
end

section
/-! PROOFS of O9 and O45: what a step runs (10_state.md R30), and where each instruction takes the next `pc` from
(10_state.md R32, 30_encoding.md R70). -/

namespace Sys2Proof.Machine

/-- Where the fetched word is an instruction, a cycle is that instruction on the same state. -/
theorem cycle_eq_exec {s : State} {i : Instr} (hpc : s.pc.toNat ≤ 4094)
    (hd : decode (wordOfBytes (s.byteAt s.pc.toNat) (s.byteAt (s.pc.toNat + 1))) = .instr i) : cycle s = exec i s := by
  simp [cycle, State.fetch_eq, hpc, hd]

/-- Settles O9: a step is the cycle, and neither `pc` nor RAM is read through the schedule. -/
theorem stepRunsTheDecodedInstruction : Obligations.StepRunsTheDecodedInstruction := fun s _ hpc hd =>
  ⟨fun hs => (step_eq_cycle hs).trans (cycle_eq_exec hpc hd),
   fun rest hs => (step_eq_perform hs).trans (cycle_eq_exec (s := { s with schedule := rest }) hpc hd)⟩

/-- A skip goes on at one of two addresses (42_immediate_compare.md R136). -/
theorem State.skipIf_pc_cases (s : State) (c : Bool) :
    (s.skipIf c).pc = s.pc + 2#16 ∨ (s.skipIf c).pc = s.pc + 4#16 := by
  cases c with
  | false => exact .inl rfl
  | true => exact .inr (BitVec.add_assoc s.pc 2#16 2#16)

/-- Settles O45, by the instructions' `pcsel`: each arm writes `pc` as its row says. -/
theorem pcSourceDecidesTheNextPc : Obligations.PcSourceDecidesTheNextPc := by
  intro i s t h
  cases i with
  | call addr =>
    obtain ⟨_, rfl⟩ := (exec_call_eq_next_iff addr s t).1 h
    simp [controls, Instr.operands, zextAddr]
  | ret =>
    obtain ⟨hsp, rfl⟩ := (exec_ret_eq_next_iff s t).1 h
    have hpop : ∃ k : Fin 16, k.val + 1 = s.sp.val ∧ s.stack[s.sp.val - 1]'(by omega) = s.stack[k.val] :=
      ⟨⟨s.sp.val - 1, by omega⟩, Nat.sub_add_cancel hsp, rfl⟩
    simpa [controls] using hpop
  | jump addr => cases h; simp [controls, Instr.operands, zextAddr]
  | jumpPlusV0 addr => cases h; simp [controls, Instr.operands, zextAddr, zextByte, BitVec.ofNat_add]
  | skipEqImm _ _ | skipNeqImm _ _ | skipEqReg _ _ | skipNeqReg _ _ | skipIfKeyDown _ | skipIfKeyUp _ =>
    cases h
    exact ⟨nofun, fun _ => State.skipIf_pc_cases s _, nofun, nofun, nofun, nofun⟩
  | waitKey x =>
    rcases exec_waitKey_cases x s with hx | ⟨_, _, hx⟩ <;> cases hx.symm.trans h <;> simp [controls, State.npc]
  | draw _ _ _ | storeBCD _ | storeRegs _ | loadRegs _ =>
    obtain ⟨_, ⟨⟩⟩ := (accessRam_eq_next_iff _ _ _ t).1 h
    simp [controls, State.npc]
  | _ =>
    cases h
    simp [controls, State.npc]

end Sys2Proof.Machine
end

section
/-! PROOFS of O51 and O53: the invariant of 10_state.md R33 and of RAM's form (log 18), one lemma for each of its three
parts, kept by every instruction the decoder gives, so by every step, so along every run from reset. -/

namespace Sys2Proof

/-! ### What the decoder gives is well-formed (30_encoding.md R63) -/

theorem addrFits_fieldAddr (w : Word) : addrFits (fieldAddr w) = true := decide_eq_true (fieldAddr_lt w)

theorem heightFits_fieldN (w : Word) : heightFits (fieldN w) = true := decide_eq_true (fieldN_lt w)

theorem wellFormed_of_decodeGroup8 {w : Word} {i : Instr} (h : decodeGroup8 w = .instr i) : i.wellFormed = true := by
  unfold decodeGroup8 at h
  split at h <;> cases h <;> rfl

theorem wellFormed_of_decodeGroupE {w : Word} {i : Instr} (h : decodeGroupE w = .instr i) : i.wellFormed = true := by
  unfold decodeGroupE at h
  split at h <;> cases h <;> rfl

theorem wellFormed_of_decodeGroupF {w : Word} {i : Instr} (h : decodeGroupF w = .instr i) : i.wellFormed = true := by
  unfold decodeGroupF at h
  split at h <;> cases h <;> rfl

/-- By the major opcode, in the order of 30_encoding.md R66. -/
theorem wellFormed_of_decode {w : Word} {i : Instr} (h : decode w = .instr i) : i.wellFormed = true := by
  dsimp only [decode] at h
  split at h
  · split at h
    · cases h; rfl
    · split at h <;> cases h
      rfl
  · cases h; exact addrFits_fieldAddr w
  · cases h; exact addrFits_fieldAddr w
  · cases h; rfl
  · cases h; rfl
  · split at h <;> cases h
    rfl
  · cases h; rfl
  · cases h; rfl
  · exact wellFormed_of_decodeGroup8 h
  · split at h <;> cases h
    rfl
  · cases h; exact addrFits_fieldAddr w
  · cases h; exact addrFits_fieldAddr w
  · cases h; rfl
  · cases h; exact heightFits_fieldN w
  · exact wellFormed_of_decodeGroupE h
  · exact wellFormed_of_decodeGroupF h

/-- The address operand of a well-formed Jump, Call or JumpPlusV0 is a 12-bit value. -/
theorem addr_lt_of_wellFormed {i : Instr} {a : Nat} (hwf : i.wellFormed = true) (ha : i.operands = [a])
    (hsel : (Machine.controls i).pcsel = .addr ∨ (Machine.controls i).pcsel = .addrPlusV0) : a < 4096 := by
  cases i with
  | jump _ | call _ | jumpPlusV0 _ => cases ha; exact of_decide_eq_true hwf
  | _ => simp [Machine.controls] at hsel

namespace Machine

/-! ### What an instruction does to RAM, to the stack and to `pc` -/

@[simp] theorem State.length_regsUpTo (s : State) (x : Reg) : (s.regsUpTo x).length = x.val + 1 := by
  have := x.isLt
  simp only [State.regsUpTo, List.length_take, Vector.length_toList]
  omega

/-- An instruction leaves RAM alone or stores a block inside RAM (20_memory.md R42). -/
theorem exec_mem_cases {i : Instr} {s t : State} (h : exec i s = .next t) :
    t.mem = s.mem ∨ ∃ a bs, a + bs.length ≤ Config.ramSize ∧ t.mem = Memory.write s.params.fontset s.mem a bs := by
  cases i with
  | call addr => obtain ⟨_, rfl⟩ := (exec_call_eq_next_iff addr s t).1 h; exact .inl rfl
  | ret => obtain ⟨_, rfl⟩ := (exec_ret_eq_next_iff s t).1 h; exact .inl rfl
  | waitKey x =>
    rcases exec_waitKey_cases x s with hx | ⟨_, _, hx⟩ <;> cases hx.symm.trans h <;> exact .inl rfl
  | draw _ _ _ | loadRegs _ =>
    obtain ⟨_, ⟨⟩⟩ := (accessRam_eq_next_iff _ _ _ t).1 h
    exact .inl rfl
  | storeBCD x =>
    obtain ⟨hin, ⟨⟩⟩ := (accessRam_eq_next_iff _ _ _ t).1 h
    exact .inr ⟨s.base, bcdDigits (s.reg x), hin.resolve_left (by decide), rfl⟩
  | storeRegs x =>
    obtain ⟨hin, ⟨⟩⟩ := (accessRam_eq_next_iff _ _ _ t).1 h
    refine .inr ⟨s.base, s.regsUpTo x, ?_, rfl⟩
    rw [State.length_regsUpTo]
    exact hin.resolve_left (Nat.succ_ne_zero _)
  | _ =>
    cases h
    simp

/-- An instruction leaves the stack entries alone or, Call, writes `npc` into one (40_control_flow.md R102). -/
theorem exec_stack_cases {i : Instr} {s t : State} (h : exec i s = .next t) :
    t.stack = s.stack ∨ ∃ hsp : s.sp.val < 16, t.stack = s.stack.set s.sp.val s.npc hsp := by
  cases i with
  | call addr => obtain ⟨hsp, rfl⟩ := (exec_call_eq_next_iff addr s t).1 h; exact .inr ⟨hsp, rfl⟩
  | ret => obtain ⟨_, rfl⟩ := (exec_ret_eq_next_iff s t).1 h; exact .inl rfl
  | waitKey x =>
    rcases exec_waitKey_cases x s with hx | ⟨_, _, hx⟩ <;> cases hx.symm.trans h <;> exact .inl rfl
  | draw _ _ _ | storeBCD _ | storeRegs _ | loadRegs _ =>
    obtain ⟨_, ⟨⟩⟩ := (accessRam_eq_next_iff _ _ _ t).1 h
    exact .inl rfl
  | _ =>
    cases h
    simp

section bounds

variable {i : Instr} {s t : State}

/-- RAM stays canonical, because a block that lands inside RAM keeps it so. -/
theorem exec_keeps_memory_wf (h : exec i s = .next t) (hm : Memory.wf s.params.fontset s.mem) :
    Memory.wf t.params.fontset t.mem := by
  rw [exec_keeps_params h]
  rcases exec_mem_cases h with heq | ⟨_, bs, hin, heq⟩
  · rwa [heq]
  · rw [heq]; exact Memory.wf_write bs hin hm

/-- A pushed return address comes from a fetchable `pc`, so it is at most 4096. -/
theorem exec_keeps_stack_le (h : exec i s = .next t) (hpc : s.pc.toNat ≤ 4094)
    (hs : ∀ k : Fin 16, s.stack[k.val].toNat ≤ 4096) (k : Fin 16) : t.stack[k.val].toNat ≤ 4096 := by
  rcases exec_stack_cases h with heq | ⟨hsp, heq⟩
  · simpa only [heq] using hs k
  · have hnpc : s.npc.toNat ≤ 4096 := by rw [State.npc]; bv_omega
    simp only [heq, Vector.getElem_set]
    split
    · exact hnpc
    · exact hs k

/-- The largest next `pc` is JumpPlusV0's, 0xFFF + 0xFF (10_state.md R33). -/
theorem exec_pc_le (h : exec i s = .next t) (hwf : i.wellFormed = true) (hpc : s.pc.toNat ≤ 4094)
    (hs : ∀ k : Fin 16, s.stack[k.val].toNat ≤ 4096) : t.pc.toNat ≤ 0x10FE := by
  obtain ⟨hseq, hskip, hhold, hpop, haddr, hplus⟩ := pcSourceDecidesTheNextPc i s t h
  cases hsel : (controls i).pcsel with
  | seq => rw [hseq hsel]; bv_omega
  | skip => rcases hskip hsel with h' | h' <;> rw [h'] <;> bv_omega
  | hold =>
    rcases hhold hsel with h' | rfl
    · rw [h']; bv_omega
    · omega
  | pop =>
    obtain ⟨k, -, h'⟩ := hpop hsel
    have := hs k
    rw [h']; omega
  | addr =>
    obtain ⟨a, ha, h'⟩ := haddr hsel
    have := addr_lt_of_wellFormed hwf ha (.inl hsel)
    rw [h', BitVec.toNat_ofNat]; omega
  | addrPlusV0 =>
    obtain ⟨a, ha, h'⟩ := hplus hsel
    have := addr_lt_of_wellFormed hwf ha (.inr hsel)
    have := (s.reg 0).isLt
    rw [h', BitVec.toNat_ofNat]; omega

end bounds

/-! ### The invariant along steps and runs -/

theorem cycle_keeps_inv {s t : State} (hs : Inv s) (h : cycle s = .next t) : Inv t := by
  obtain ⟨hmem, -, hstack⟩ := hs
  rcases cycle_cases s with ⟨_, hf⟩ | ⟨hpc, ⟨_, _, hu⟩ | ⟨i, hd, hi⟩⟩
  · simp [hf] at h
  · simp [hu] at h
  · rw [hi] at h
    exact ⟨exec_keeps_memory_wf h hmem, exec_pc_le h (wellFormed_of_decode hd) hpc hstack,
      exec_keeps_stack_le h hpc hstack⟩

/-- The base case, for every FONTSET: nothing is listed in RAM, `pc` is 0x200 and the stack is zero
(70_reset_and_hazards.md R242). -/
theorem inv_resetWith (p : Parameters) : Inv (State.resetWith p) :=
  ⟨Memory.wf_nil, by simp [State.resetWith], fun k => by simp [State.resetWith]⟩

theorem perform_keeps_inv {op : HostOp} {s t : State} (hs : Inv s) (h : perform op s = .next t) : Inv t := by
  cases op with
  | step => exact cycle_keeps_inv hs h
  | load image =>
    obtain ⟨hlen, rfl⟩ := (hostLoad_eq_next_iff image s t).1 h
    obtain ⟨hmem, hpc, hstack⟩ := hs
    exact ⟨Memory.wf_write image (Nat.add_le_add_left hlen Config.programOrigin) hmem, hpc, hstack⟩
  | reset => cases h; exact inv_resetWith s.params
  | tick | setKey _ _ | readFramebuffer | readTimers => cases h; exact hs

/-- The invariant does not look at the schedule. -/
theorem inv_nextOp {s : State} (hs : Inv s) : Inv s.nextOp.2 := by
  cases h : s.schedule with
  | nil => rwa [State.nextOp_nil h]
  | cons op rest => rw [State.nextOp_cons h]; exact hs

/-- Settles O51: a step is a host operation on the state without its schedule entry. -/
theorem stepKeepsTheInvariant : Obligations.StepKeepsTheInvariant := fun _ _ hs h =>
  perform_keeps_inv (inv_nextOp hs) h

theorem Reaches.inv {s t : State} (hr : Reaches s t) (hs : Inv s) : Inv t := by
  induction hr with
  | start => exact hs
  | more t u _ hstep ih => exact stepKeepsTheInvariant t u ih hstep

/-- Settles O53: by induction on the run, from a start state that differs from reset in the host's inputs only. -/
theorem reachableStatesMeetTheInvariant : Obligations.ReachableStatesMeetTheInvariant := fun p _ _ _ _ hr =>
  hr.inv (inv_resetWith p)

end Machine
end Sys2Proof
end

section
/-! PROOFS of O26: which registers an instruction can write, and that a written flag is 0x00 or 0x01
(10_state.md R12, R31). -/

namespace Sys2Proof.Machine

theorem mem_regsTo (x k : Reg) : k ∈ regsTo x ↔ k.val ≤ x.val := by simp [regsTo]

/-- An instruction writes no register that its row of the control table does not name (30_encoding.md R70). -/
theorem exec_regsKeptBut {i : Instr} {s t : State} (h : exec i s = .next t) :
    RegsKeptBut (controls i).regsWritten s t := by
  intro k hk
  cases i with
  | call addr => obtain ⟨_, rfl⟩ := (exec_call_eq_next_iff addr s t).1 h; rfl
  | ret => obtain ⟨_, rfl⟩ := (exec_ret_eq_next_iff s t).1 h; rfl
  | waitKey x =>
    have hne : k ≠ x := List.ne_of_not_mem_cons hk
    rcases exec_waitKey_cases x s with hx | ⟨_, _, hx⟩ <;> cases hx.symm.trans h
    · rfl
    · exact State.reg_setReg_ne s hne _
  | draw x y n =>
    have hne : k ≠ flagReg := List.ne_of_not_mem_cons hk
    obtain ⟨_, ⟨⟩⟩ := (accessRam_eq_next_iff _ _ _ t).1 h
    exact State.reg_setReg_ne _ hne _
  | storeBCD _ | storeRegs _ => obtain ⟨_, ⟨⟩⟩ := (accessRam_eq_next_iff _ _ _ t).1 h; rfl
  | loadRegs x =>
    have hlt : ¬ k.val < x.val + 1 := fun hlt => hk ((mem_regsTo x k).2 (Nat.le_of_lt_succ hlt))
    obtain ⟨_, ⟨⟩⟩ := (accessRam_eq_next_iff _ _ _ t).1 h
    simp [State.reg_setRegsFrom, hlt]
  | addReg x _ | subReg x _ | subnReg x _ | shr x | shl x =>
    obtain ⟨hflag, hx⟩ : k ≠ flagReg ∧ k ≠ x := by simpa [controls, Controls.regsWritten] using hk
    cases h
    simp [reg_writeResultAndFlag, hflag, hx]
  | loadImm x _ | addImm x _ | move x _ | orReg x _ | andReg x _ | xorReg x _ | random x _ | readDelay x =>
    have hne : k ≠ x := List.ne_of_not_mem_cons hk
    cases h
    simp [State.reg_setReg_ne _ hne]
  | _ =>
    cases h
    simp

/-- The control table's flag writers are the six of 10_state.md R12. -/
theorem flagWrite_iff_op (i : Instr) : (controls i).flagWrite = true ↔
    (i.op = 13 ∨ i.op = 14 ∨ i.op = 15 ∨ i.op = 16 ∨ i.op = 17 ∨ i.op = 22) := by
  cases i <;> simp [controls, Instr.op]

theorem flagByte_cases (f : Bool) : flagByte f = 0x00#8 ∨ flagByte f = 0x01#8 := by
  cases f
  · exact .inl rfl
  · exact .inr rfl

/-- Where the result cannot land on the flag, a flag writer leaves a flag in `v[0xF]`. -/
theorem exec_reg_flagReg {i : Instr} {s t : State} (h : exec i s = .next t) (hi : (controls i).flagWrite = true)
    (ho : s.params.vfAliasOrder = .flagLast ∨ flagReg ∉ (controls i).vwr) : ∃ f, t.reg flagReg = flagByte f := by
  cases i with
  | draw x y n =>
    obtain ⟨_, ⟨⟩⟩ := (accessRam_eq_next_iff _ _ _ t).1 h
    exact ⟨_, State.reg_setReg_self _ _ _⟩
  | addReg x _ | subReg x _ | subnReg x _ | shr x | shl x =>
    have ho' : s.params.vfAliasOrder = .flagLast ∨ x ≠ flagReg := ho.imp_right fun hx he => hx (he ▸ List.mem_cons_self)
    cases h
    exact ⟨_, by rw [State.advance_reg, reg_writeResultAndFlag, if_pos ⟨rfl, ho'⟩]⟩
  | _ => cases hi

/-- Settles O26: a flag writer leaves a flag, and for the others `v[0xF]` is among the registers that are kept. -/
theorem onlyTheSixWriteTheFlag : Obligations.OnlyTheSixWriteTheFlag := by
  intro i s t h
  rw [← flagWrite_iff_op]
  refine ⟨fun hi ho => ?_, fun hi hk => ?_⟩
  · obtain ⟨f, hf⟩ := exec_reg_flagReg h hi ho
    rw [hf]
    exact flagByte_cases f
  · exact exec_regsKeptBut h 15 (by rwa [Controls.regsWritten, if_neg hi])

end Sys2Proof.Machine
end

section
/-! PROOFS of O46 and O47: what no instruction's control reads. A field that neither the branching arms nor the checks
look at passes through an instruction; the arms that branch are done once for every such field. -/

namespace Sys2Proof.Machine

/-- A change of the state that touches nothing the branching arms read or write: `pc`, the registers, the stack, the
keys. -/
structure Unseen (g : State → State) : Prop where
  pc : ∀ s, (g s).pc = s.pc
  sp : ∀ s, (g s).sp = s.sp
  stack : ∀ s, (g s).stack = s.stack
  keys : ∀ s, (g s).keys = s.keys
  setReg : ∀ s k b, (g s).setReg k b = g (s.setReg k b)
  setFlow : ∀ (s : State) (a : Word) (p : Fin 17) (st : Vector Word 16),
    { g s with pc := a, sp := p, stack := st } = g { s with pc := a, sp := p, stack := st }

theorem unseen_setSoundTimer (b : Byte) : Unseen (·.setSoundTimer b) := by
  constructor <;> intros <;> rfl

theorem unseen_setFb (fb : Framebuffer) : Unseen (·.setFb fb) := by
  constructor <;> intros <;> rfl

/-- The range check looks at the addresses only. -/
theorem mapNext_accessRam (g : State → State) (a n : Nat) (e : Result) :
    mapNext g (accessRam a n e) = accessRam a n (mapNext g e) := by
  unfold accessRam
  split <;> rfl

namespace Unseen

variable {g : State → State} (hg : Unseen g) (s : State)
include hg

theorem setPc (a : Word) : (g s).setPc a = g (s.setPc a) := by
  simpa only [State.setPc, hg.sp, hg.stack] using hg.setFlow s a s.sp s.stack

theorem skipIf (c : Bool) : (g s).skipIf c = g (s.skipIf c) := by
  cases c <;> simp [State.skipIf, State.advance, State.npc, hg.setPc, hg.pc]

theorem exec_call (addr : Nat) : exec (.call addr) (g s) = mapNext g (exec (.call addr) s) := by
  by_cases h : s.sp.val < 16
  · rw [exec_call_next addr s h, exec_call_next addr (g s) (by rwa [hg.sp])]
    simp only [State.setPc, State.npc, hg.pc, hg.sp, hg.stack]
    exact congrArg Host.Outcome.next (hg.setFlow s _ _ _)
  · rw [exec_call_fault addr s (by omega), exec_call_fault addr (g s) (by rw [hg.sp]; omega)]
    rfl

theorem exec_ret : exec .ret (g s) = mapNext g (exec .ret s) := by
  by_cases h : 0 < s.sp.val
  · rw [exec_ret_next s h, exec_ret_next (g s) (by rwa [hg.sp])]
    simp only [State.setPc, hg.sp, hg.stack]
    exact congrArg Host.Outcome.next (hg.setFlow s _ _ _)
  · rw [exec_ret_fault s (by omega), exec_ret_fault (g s) (by rw [hg.sp]; omega)]
    rfl

theorem exec_waitKey (x : Reg) : exec (.waitKey x) (g s) = mapNext g (exec (.waitKey x) s) := by
  have hkeys : (g s).lowestPressed = s.lowestPressed := by rw [State.lowestPressed, hg.keys]; rfl
  cases h : s.lowestPressed with
  | none => rw [exec_waitKey_none x s h, exec_waitKey_none x (g s) (hkeys.trans h)]; rfl
  | some k =>
    rw [exec_waitKey_some x s h, exec_waitKey_some x (g s) (hkeys.trans h)]
    simp [mapNext, State.advance, State.npc, hg.setReg, hg.setPc, hg.pc]

end Unseen

/-- Settles O46: an arm that branches does so on other fields, and every other arm passes `sound_timer` through or, as
WriteSound, replaces it. -/
theorem noInstructionReadsTheSoundTimer : Obligations.NoInstructionReadsTheSoundTimer := by
  intro i s b
  have hg := unseen_setSoundTimer b
  cases i with
  | call addr => exact hg.exec_call s addr
  | ret => exact hg.exec_ret s
  | waitKey x => exact hg.exec_waitKey s x
  | skipEqImm _ _ | skipNeqImm _ _ | skipEqReg _ _ | skipNeqReg _ _ | skipIfKeyDown _ | skipIfKeyUp _ =>
    exact congrArg Host.Outcome.next (hg.skipIf s _)
  | draw _ _ _ | storeBCD _ | storeRegs _ | loadRegs _ =>
    -- the check is of the same addresses on both sides
    simp only [exec_draw, exec_storeBCD, exec_storeRegs, exec_loadRegs, mapNext_accessRam]
    rfl
  | _ => rfl

/-- Settles O47: the same for the framebuffer, which ClearScreen replaces; Draw is excluded. -/
theorem onlyDrawObservesTheFramebuffer : Obligations.OnlyDrawObservesTheFramebuffer := by
  intro i s fb hi
  have hg := unseen_setFb fb
  cases i with
  | draw _ _ _ => exact absurd rfl hi
  | call addr => exact hg.exec_call s addr
  | ret => exact hg.exec_ret s
  | waitKey x => exact hg.exec_waitKey s x
  | skipEqImm _ _ | skipNeqImm _ _ | skipEqReg _ _ | skipNeqReg _ _ | skipIfKeyDown _ | skipIfKeyUp _ =>
    exact congrArg Host.Outcome.next (hg.skipIf s _)
  | storeBCD _ | storeRegs _ | loadRegs _ =>
    simp only [exec_storeBCD, exec_storeRegs, exec_loadRegs, mapNext_accessRam]
    rfl
  | _ => rfl

end Sys2Proof.Machine
end

section
/-! PROOFS of O10 and O12: the fetch as two bytes and as a check (20_memory.md R43), and the operation a step
performs (20_memory.md R51). -/

namespace Sys2Proof.Machine

/-- A cycle whose fetch leaves RAM faults at the lowest address outside (20_memory.md R43, 60_exceptions.md R204). -/
theorem cycle_of_fetch_outside {s : State} (h : 4094 < s.pc.toNat) :
    cycle s = .fault (.memoryFault (max s.pc.toNat 4096)) := by
  simp [cycle, State.fetch_eq, Nat.not_le.2 h, raise]

/-- Settles O10: the fetched word by its two halves, and the fault of the cycle that a step is. -/
theorem fetchIsBigEndianAndChecked : Obligations.FetchIsBigEndianAndChecked := by
  refine fun s => ⟨fun hpc => ?_, fun hs hpc => ?_, fun hs hpc => ?_⟩
  · refine ⟨_, by rw [State.fetch_eq, if_pos hpc], ?_, ?_⟩
    · rw [← highByte_toNat, highByte_wordOfBytes]
    · rw [← lowByte_toNat, lowByte_wordOfBytes]
  · rw [step_eq_cycle hs, cycle_of_fetch_outside (by omega), hpc]
    rfl
  · rw [step_eq_cycle hs, cycle_of_fetch_outside (by omega), Nat.max_eq_left hpc]

/-- Settles O12, which is the law of a step with an operation scheduled. -/
theorem stepPerformsTheScheduledOperation : Obligations.StepPerformsTheScheduledOperation := fun _ _ _ h =>
  step_eq_perform h

end Sys2Proof.Machine
end

section
/-! PROOFS of O43: what StoreRegs leaves in RAM (48_memory_block.md R181), which the next fetch reads
(20_memory.md R44). -/

namespace Sys2Proof.Machine

theorem State.getD_regsUpTo (s : State) {x k : Reg} (h : k ≤ x) (d : Byte) :
    (s.regsUpTo x).getD k.val d = s.reg k := by
  have hk : k.val < x.val + 1 := Nat.lt_succ_of_le h
  simp [State.regsUpTo, State.reg, List.getD, hk]

/-- After `v[0]` to `v[x]` are stored from an address upward, the byte `k` above it is `v[k]`. -/
theorem State.byteAt_storeBytes_regsUpTo (s : State) (a : Nat) {x k : Reg} (h : k ≤ x) :
    (s.storeBytes a (s.regsUpTo x)).byteAt (a + k.val) = s.reg k := by
  have hk : k.val < x.val + 1 := Nat.lt_succ_of_le h
  rw [State.byteAt_storeBytes, State.length_regsUpTo, if_pos (by omega), Nat.add_sub_cancel_left,
    State.getD_regsUpTo s h]

/-- StoreRegs with its whole block in RAM completes. -/
theorem exec_storeRegs_next {s : State} {x : Reg} (h : s.base + x.val < 4096) :
    exec (.storeRegs x) s = .next (s.storeBytes s.base (s.regsUpTo x)).advance :=
  accessRam_of_inside (.inr h) _

/-- Settles O43: the fetch reads bytes 0 and 1 of the stored block. -/
theorem storedBytesAreFetchedAtOnce : Obligations.StoredBytesAreFetchedAtOnce := by
  intro s x hx hin
  refine ⟨_, exec_storeRegs_next hin, fun u hram hpc => ?_⟩
  have hbyte : ∀ k : Reg, k ≤ x → u.byteAt (s.i.toNat + k.val) = s.reg k := fun k hk =>
    (hram _).trans (s.byteAt_storeBytes_regsUpTo s.base hk)
  have hhi : u.byteAt s.i.toNat = s.reg 0 := hbyte 0 (Fin.zero_le x)
  have hlo : u.byteAt (s.i.toNat + 1) = s.reg 1 := hbyte 1 hx
  rw [State.fetch_eq, hpc, if_pos (by omega), hhi, hlo]

end Sys2Proof.Machine
end

section
/-! PROOFS of O48: RAM is one more part of the state that no instruction's control reads. The instructions whose row
has a MemoryFault are the ones that read or write it (30_encoding.md R70). -/

namespace Sys2Proof.Machine

theorem unseen_replaceRam (m : Memory) : Unseen (fun s => { s with mem := m }) := by
  constructor <;> intros <;> rfl

/-- Settles O48: an arm that branches does so on other fields, and every other arm passes RAM through. -/
theorem othersDoNotLookAtRam : Obligations.OthersDoNotLookAtRam := by
  intro i s m hi
  have hg := unseen_replaceRam m
  cases i with
  | draw _ _ _ | storeBCD _ | storeRegs _ | loadRegs _ => exact absurd rfl hi
  | call addr => exact hg.exec_call s addr
  | ret => exact hg.exec_ret s
  | waitKey x => exact hg.exec_waitKey s x
  | skipEqImm _ _ | skipNeqImm _ _ | skipEqReg _ _ | skipNeqReg _ _ | skipIfKeyDown _ | skipIfKeyUp _ =>
    exact congrArg Host.Outcome.next (hg.skipIf s _)
  | _ => rfl

end Sys2Proof.Machine
end

section
/-! PROOFS of O50: a canonical RAM list is determined by what it reads (20_memory.md R40; log 18). Its reads say which
addresses it lists, the listed bytes are its members, and a rising list is determined by its members. -/

namespace Sys2Proof.Machine

theorem Memory.mem_of_lookup_eq_some {m : Memory} {a : Nat} {b : Byte} (h : Memory.lookup m a = some b) :
    (a, b) ∈ m := by
  induction m with
  | nil => cases h
  | cons c m ih =>
    unfold Memory.lookup at h
    split at h
    · next heq => cases h; subst heq; exact List.mem_cons_self
    · exact List.mem_cons_of_mem _ (ih h)

/-- A list with rising addresses lists each of its members. -/
theorem Memory.lookup_eq_some_of_mem {m : Memory} {a : Nat} {b : Byte} (hm : m.Pairwise (fun c d => c.1 < d.1))
    (h : (a, b) ∈ m) : Memory.lookup m a = some b := by
  induction m with
  | nil => cases h
  | cons c m ih =>
    have ⟨hlt, hm'⟩ := List.pairwise_cons.1 hm
    rcases List.mem_cons.1 h with rfl | h
    · exact if_pos rfl
    · exact (if_neg (Nat.ne_of_gt (hlt _ h))).trans (ih hm' h)

/-- The cells of a canonical list are the addresses that read otherwise than unlisted, with what they read. -/
theorem Memory.mem_iff_get {font : Fontset} {m : Memory} (hm : Memory.wf font m) (c : Host.Cell) :
    c ∈ m ↔ Memory.get font m c.1 = c.2 ∧ c.2 ≠ Memory.unlisted font c.1 := by
  obtain ⟨hrising, hcells⟩ := hm
  constructor
  · intro hc
    exact ⟨by rw [Memory.get, Memory.lookup_eq_some_of_mem hrising hc, Option.getD_some], (hcells c hc).2⟩
  · rintro ⟨hget, hne⟩
    rw [Memory.get] at hget
    cases hl : Memory.lookup m c.1 with
    | none => rw [hl, Option.getD_none] at hget; exact absurd hget.symm hne
    | some b =>
      rw [hl, Option.getD_some] at hget
      exact Memory.mem_of_lookup_eq_some (hget ▸ hl)

theorem Memory.nodup_of_rising {m : Memory} (hm : m.Pairwise (fun c d => c.1 < d.1)) : m.Nodup :=
  hm.imp fun hlt heq => Nat.ne_of_lt hlt (congrArg Prod.fst heq)

/-- Rising lists with the same members are the same list: one is a permutation of the other, and both are in order. -/
theorem Memory.eq_of_mem_iff {m m' : Memory} (hm : m.Pairwise (fun c d => c.1 < d.1))
    (hm' : m'.Pairwise (fun c d => c.1 < d.1)) (h : ∀ c, c ∈ m ↔ c ∈ m') : m = m' := by
  have hperm : m.Perm m' :=
    (List.perm_ext_iff_of_nodup (Memory.nodup_of_rising hm) (Memory.nodup_of_rising hm')).2 h
  exact hperm.eq_of_pairwise (fun _ _ _ _ hcd hdc => absurd hcd (Nat.lt_asymm hdc)) hm hm'

/-- Settles O50: equal reads give equal cells, and equal cells give equal lists. -/
theorem equalRamIsEqualData : Obligations.EqualRamIsEqualData := fun _ _ _ hm hm' hget =>
  Memory.eq_of_mem_iff hm.1 hm'.1 fun c => by rw [Memory.mem_iff_get hm, Memory.mem_iff_get hm', hget]

end Sys2Proof.Machine
end

section
/-! PROOFS of O3 and O4: the fields as numbers (30_encoding.md R61), and the words of 95_test_vectors.md 2.1. -/

namespace Sys2Proof

/-- Settles O3, field by field. -/
theorem fieldsAreTheSpecsSlices : Obligations.FieldsAreTheSpecsSlices := fun w =>
  ⟨fieldN1_toNat w, fieldX_val w, fieldY_val w, fieldN4_toNat w, fieldN_eq w, fieldByte_toNat w, fieldAddr_eq w,
   highByte_toNat w, lowByte_toNat w, fun hi lo => by rw [wordOfBytes_toNat, Nat.mul_comm]⟩

/-- Settles O4: thirteen fixed words, by running the decoder on each. -/
theorem specWordsDecode : Obligations.SpecWordsDecode := by
  unfold Obligations.SpecWordsDecode
  decide

end Sys2Proof
end

section
/-! PROOFS of O5: the decoder on an encoded word (30_encoding.md R71). -/

namespace Sys2Proof

/-- Decoding undoes encoding: the fields of the encoded word are the operands, by the instruction's format (R62); a
12-bit address and a 4-bit count come back because they fit. -/
theorem decode_encode {i : Instr} (hwf : i.wellFormed = true) : decode (encode i) = .instr i := by
  cases i with
  | clearScreen | ret => rfl
  | jump addr | call addr | setIndex addr | jumpPlusV0 addr =>
    have haddr : addr < 4096 := of_decide_eq_true hwf
    simp [encode, decode, fieldAddr_wordA _ haddr]
  | draw x y n =>
    have hn : n < 16 := of_decide_eq_true hwf
    simp [encode, decode, fieldN_wordXY _ _ _ hn]
  | skipEqImm _ _ | skipNeqImm _ _ | loadImm _ _ | addImm _ _ | random _ _ | skipEqReg _ _ | skipNeqReg _ _ =>
    simp [encode, decode]
  | move _ _ | orReg _ _ | andReg _ _ | xorReg _ _ | addReg _ _ | subReg _ _ | shr _ | subnReg _ _ | shl _ =>
    simp [encode, decode, decodeGroup8]
  | skipIfKeyDown _ | skipIfKeyUp _ => simp [encode, decode, decodeGroupE]
  | readDelay _ | waitKey _ | writeDelay _ | writeSound _ | addIndex _ | indexToGlyph _ | storeBCD _ | storeRegs _
  | loadRegs _ =>
    simp [encode, decode, decodeGroupF]

/-- The two bytes of a word decode as the word does, and what follows them is left (20_memory.md R43). -/
theorem decodeBytes_of_decode {w : Word} {i : Instr} (h : decode w = .instr i) (rest : List Byte) :
    decodeBytes (highByte w :: lowByte w :: rest) = .instr i rest := by
  simp [decodeBytes, h]

/-- Settles O5: the encoded bytes are those of the encoded word. -/
theorem decodeOfEncodedBytesIsTheInstruction : Obligations.DecodeOfEncodedBytesIsTheInstruction := fun _ rest hwf =>
  decodeBytes_of_decode (decode_encode hwf) rest

end Sys2Proof
end

section
/-! PROOFS of O6: a decoded word is put together again from its fields (30_encoding.md R61, R71). -/

namespace Sys2Proof

/-! ### A word from its fields, by format (R62) -/

theorem wordA_fields (w : Word) : wordA (fieldN1 w) (fieldAddr w) = w := by
  apply BitVec.eq_of_toNat_eq
  rw [wordA_toNat, fieldN1_toNat, fieldAddr_eq]
  omega

theorem wordXB_fields (w : Word) : wordXB (fieldN1 w) (fieldX w) (fieldByte w) = w := by
  apply BitVec.eq_of_toNat_eq
  rw [wordXB_toNat, fieldN1_toNat, fieldX_val, fieldByte_toNat]
  omega

theorem wordXY_fields (w : Word) : wordXY (fieldN1 w) (fieldX w) (regNibble (fieldY w)) (fieldN4 w) = w := by
  apply BitVec.eq_of_toNat_eq
  rw [wordXY_toNat, regNibble_toNat, fieldN1_toNat, fieldX_val, fieldY_val, fieldN4_toNat]
  omega

theorem nibbles_wordXY (n1 : BitVec 4) (x : Reg) (y n4 : BitVec 4) :
    nibble 3 (wordXY n1 x y n4) = n1 ∧ nibble 2 (wordXY n1 x y n4) = regNibble x ∧
    nibble 1 (wordXY n1 x y n4) = y ∧ nibble 0 (wordXY n1 x y n4) = n4 := by
  have := y.isLt
  have := n4.isLt
  simp only [← BitVec.toNat_inj, nibble_toNat, wordXY_toNat, regNibble_toNat]
  omega

theorem regNibble_fieldX (w : Word) : regNibble (fieldX w) = nibble 2 w := by
  have hreg := regNibble_toNat (fieldX w)
  have hfield := fieldX_val w
  have hnibble := nibble_toNat 2 w
  exact BitVec.eq_of_toNat_eq (by omega)

/-- Writing 0 for the `y` nibble is masking it out (92_eei_decisions.md D24). -/
theorem wordXY_fields_zero (w : Word) : wordXY (fieldN1 w) (fieldX w) 0x0#4 (fieldN4 w) = w &&& 0xFF0F#16 := by
  obtain ⟨h3, h2, h1, h0⟩ := nibbles_wordXY (fieldN1 w) (fieldX w) 0x0#4 (fieldN4 w)
  rw [eq_comm, masked_iff, h3, h2, h1, h0, regNibble_fieldX, fieldN1_eq_nibble, fieldN4_eq_nibble]
  simp only [show nibble 3 0xFF0F#16 = BitVec.allOnes 4 by decide, show nibble 2 0xFF0F#16 = BitVec.allOnes 4 by decide,
    show nibble 1 0xFF0F#16 = 0x0#4 by decide, show nibble 0 0xFF0F#16 = BitVec.allOnes 4 by decide,
    BitVec.and_allOnes, BitVec.and_zero, and_self]

/-! ### The major opcode that the decoder's last arm stands for -/

theorem eq_F_of_not_mem : ∀ c : BitVec 4, c ∉ [0x0#4, 0x1#4, 0x2#4, 0x3#4, 0x4#4, 0x5#4, 0x6#4, 0x7#4, 0x8#4, 0x9#4,
    0xA#4, 0xB#4, 0xC#4, 0xD#4, 0xE#4] → c = 0xF#4 := by
  decide

/-! ### Encoding what was decoded -/

/-- The instruction's encoding is the word, the `y` nibble written as 0 where the instruction ignores it (R71, decision
D24, log 27). -/
def EncodesBack (w : Word) (i : Instr) : Prop := encode i = if i.op = 15 ∨ i.op = 17 then w &&& 0xFF0F#16 else w

theorem encodesBack_of_decodeGroup8 {w : Word} {i : Instr} (h1 : fieldN1 w = 0x8#4)
    (h : decodeGroup8 w = .instr i) : EncodesBack w i := by
  have hxy := wordXY_fields w
  have hx := wordXY_fields_zero w
  rw [h1] at hxy hx
  dsimp only [decodeGroup8] at h
  split at h <;> cases h
  case h_7 h4 | h_9 h4 => simpa [EncodesBack, encode, Instr.op, h4] using hx
  all_goals simpa [EncodesBack, encode, Instr.op, *] using hxy

theorem encodesBack_of_decodeGroupE {w : Word} {i : Instr} (h1 : fieldN1 w = 0xE#4)
    (h : decodeGroupE w = .instr i) : EncodesBack w i := by
  have hxb := wordXB_fields w
  unfold decodeGroupE at h
  split at h <;> cases h <;> simpa [EncodesBack, encode, Instr.op, *] using hxb

theorem encodesBack_of_decodeGroupF {w : Word} {i : Instr} (h1 : fieldN1 w = 0xF#4)
    (h : decodeGroupF w = .instr i) : EncodesBack w i := by
  have hxb := wordXB_fields w
  dsimp only [decodeGroupF] at h
  split at h <;> cases h <;> simpa [EncodesBack, encode, Instr.op, *] using hxb

/-- By the major opcode: the decoder's arm `h_k` is the one for major opcode k - 1. Arms of one format (R62) put the word
together the same way. -/
theorem encodesBack_of_decode {w : Word} {i : Instr} (h : decode w = .instr i) : EncodesBack w i := by
  dsimp only [decode] at h
  split at h
  case h_1 =>
    -- the two fixed words
    split at h
    · next hw => cases h; exact hw.symm
    · split at h <;> cases h
      next hw => exact hw.symm
  case h_2 h1 | h_3 h1 | h_11 h1 | h_12 h1 =>
    cases h
    simpa [EncodesBack, encode, Instr.op, h1] using wordA_fields w
  case h_4 h1 | h_5 h1 | h_7 h1 | h_8 h1 | h_13 h1 =>
    cases h
    simpa [EncodesBack, encode, Instr.op, h1] using wordXB_fields w
  case h_6 h1 | h_10 h1 =>
    split at h <;> cases h
    next h4 => simpa [EncodesBack, encode, Instr.op, h1, h4] using wordXY_fields w
  case h_14 h1 =>
    cases h
    simpa [EncodesBack, encode, Instr.op, fieldN, h1] using wordXY_fields w
  case h_9 h1 => exact encodesBack_of_decodeGroup8 h1 h
  case h_15 h1 => exact encodesBack_of_decodeGroupE h1 h
  case h_16 => exact encodesBack_of_decodeGroupF (eq_F_of_not_mem _ (by simp_all)) h

/-- Settles O6: what the decoder gives is within the operands' ranges and encodes back, by the major opcode. -/
theorem decodedInstructionEncodesBack : Obligations.DecodedInstructionEncodesBack := fun _ _ h =>
  ⟨wellFormed_of_decode h, encodesBack_of_decode h⟩

end Sys2Proof
end

section
/-! PROOFS, the decoder row by row: every word of a row of the opcode map decodes to that row's instruction, with the
word's fields as operands (30_encoding.md R65, R66). One lemma per instruction, by the four masks that R66 uses. -/

namespace Sys2Proof.Machine

section masks

variable {m : Word} {c n : BitVec 4} {b : Byte} {f : Word → Instr}

theorem encodedAs_of_word (h : decode m = .instr (f m)) : EncodedAs 0xFFFF#16 m f := by
  intro w hw
  rwa [(and_FFFF w m).1 hw]

theorem encodedAs_of_major (hm : m &&& 0xF000#16 = m ∧ fieldN1 m = c)
    (h : ∀ w, fieldN1 w = c → decode w = .instr (f w)) : EncodedAs 0xF000#16 m f := by
  obtain ⟨hm, rfl⟩ := hm
  exact fun w hw => h w ((and_F000 w m hm).1 hw)

theorem encodedAs_of_minor (hm : m &&& 0xF00F#16 = m ∧ fieldN1 m = c ∧ fieldN4 m = n)
    (h : ∀ w, fieldN1 w = c → fieldN4 w = n → decode w = .instr (f w)) : EncodedAs 0xF00F#16 m f := by
  obtain ⟨hm, rfl, rfl⟩ := hm
  intro w hw
  obtain ⟨h1, h4⟩ := (and_F00F w m hm).1 hw
  exact h w h1 h4

theorem encodedAs_of_low (hm : m &&& 0xF0FF#16 = m ∧ fieldN1 m = c ∧ fieldByte m = b)
    (h : ∀ w, fieldN1 w = c → fieldByte w = b → decode w = .instr (f w)) : EncodedAs 0xF0FF#16 m f := by
  obtain ⟨hm, rfl, rfl⟩ := hm
  intro w hw
  obtain ⟨h1, hb⟩ := (and_F0FF w m hm).1 hw
  exact h w h1 hb

end masks

theorem encodedAs_clearScreen : EncodedAs 0xFFFF#16 0x00E0#16 (fun _ => .clearScreen) := encodedAs_of_word rfl
theorem encodedAs_ret : EncodedAs 0xFFFF#16 0x00EE#16 (fun _ => .ret) := encodedAs_of_word rfl
theorem encodedAs_jump : EncodedAs 0xF000#16 0x1000#16 (fun w => .jump (fieldAddr w)) :=
  encodedAs_of_major (c := 0x1#4) (by decide) fun w h1 => by simp [decode, h1]
theorem encodedAs_call : EncodedAs 0xF000#16 0x2000#16 (fun w => .call (fieldAddr w)) :=
  encodedAs_of_major (c := 0x2#4) (by decide) fun w h1 => by simp [decode, h1]
theorem encodedAs_skipEqImm : EncodedAs 0xF000#16 0x3000#16 (fun w => .skipEqImm (fieldX w) (fieldByte w)) :=
  encodedAs_of_major (c := 0x3#4) (by decide) fun w h1 => by simp [decode, h1]
theorem encodedAs_skipNeqImm : EncodedAs 0xF000#16 0x4000#16 (fun w => .skipNeqImm (fieldX w) (fieldByte w)) :=
  encodedAs_of_major (c := 0x4#4) (by decide) fun w h1 => by simp [decode, h1]
theorem encodedAs_loadImm : EncodedAs 0xF000#16 0x6000#16 (fun w => .loadImm (fieldX w) (fieldByte w)) :=
  encodedAs_of_major (c := 0x6#4) (by decide) fun w h1 => by simp [decode, h1]
theorem encodedAs_addImm : EncodedAs 0xF000#16 0x7000#16 (fun w => .addImm (fieldX w) (fieldByte w)) :=
  encodedAs_of_major (c := 0x7#4) (by decide) fun w h1 => by simp [decode, h1]
theorem encodedAs_setIndex : EncodedAs 0xF000#16 0xA000#16 (fun w => .setIndex (fieldAddr w)) :=
  encodedAs_of_major (c := 0xA#4) (by decide) fun w h1 => by simp [decode, h1]
theorem encodedAs_jumpPlusV0 : EncodedAs 0xF000#16 0xB000#16 (fun w => .jumpPlusV0 (fieldAddr w)) :=
  encodedAs_of_major (c := 0xB#4) (by decide) fun w h1 => by simp [decode, h1]
theorem encodedAs_random : EncodedAs 0xF000#16 0xC000#16 (fun w => .random (fieldX w) (fieldByte w)) :=
  encodedAs_of_major (c := 0xC#4) (by decide) fun w h1 => by simp [decode, h1]
theorem encodedAs_draw : EncodedAs 0xF000#16 0xD000#16 (fun w => .draw (fieldX w) (fieldY w) (fieldN w)) :=
  encodedAs_of_major (c := 0xD#4) (by decide) fun w h1 => by simp [decode, h1]
theorem encodedAs_skipEqReg : EncodedAs 0xF00F#16 0x5000#16 (fun w => .skipEqReg (fieldX w) (fieldY w)) :=
  encodedAs_of_minor (c := 0x5#4) (n := 0x0#4) (by decide) fun w h1 h4 => by simp [decode, h1, h4]
theorem encodedAs_skipNeqReg : EncodedAs 0xF00F#16 0x9000#16 (fun w => .skipNeqReg (fieldX w) (fieldY w)) :=
  encodedAs_of_minor (c := 0x9#4) (n := 0x0#4) (by decide) fun w h1 h4 => by simp [decode, h1, h4]
theorem encodedAs_move : EncodedAs 0xF00F#16 0x8000#16 (fun w => .move (fieldX w) (fieldY w)) :=
  encodedAs_of_minor (c := 0x8#4) (n := 0x0#4) (by decide) fun w h1 h4 => by simp [decode, decodeGroup8, h1, h4]
theorem encodedAs_orReg : EncodedAs 0xF00F#16 0x8001#16 (fun w => .orReg (fieldX w) (fieldY w)) :=
  encodedAs_of_minor (c := 0x8#4) (n := 0x1#4) (by decide) fun w h1 h4 => by simp [decode, decodeGroup8, h1, h4]
theorem encodedAs_andReg : EncodedAs 0xF00F#16 0x8002#16 (fun w => .andReg (fieldX w) (fieldY w)) :=
  encodedAs_of_minor (c := 0x8#4) (n := 0x2#4) (by decide) fun w h1 h4 => by simp [decode, decodeGroup8, h1, h4]
theorem encodedAs_xorReg : EncodedAs 0xF00F#16 0x8003#16 (fun w => .xorReg (fieldX w) (fieldY w)) :=
  encodedAs_of_minor (c := 0x8#4) (n := 0x3#4) (by decide) fun w h1 h4 => by simp [decode, decodeGroup8, h1, h4]
theorem encodedAs_addReg : EncodedAs 0xF00F#16 0x8004#16 (fun w => .addReg (fieldX w) (fieldY w)) :=
  encodedAs_of_minor (c := 0x8#4) (n := 0x4#4) (by decide) fun w h1 h4 => by simp [decode, decodeGroup8, h1, h4]
theorem encodedAs_subReg : EncodedAs 0xF00F#16 0x8005#16 (fun w => .subReg (fieldX w) (fieldY w)) :=
  encodedAs_of_minor (c := 0x8#4) (n := 0x5#4) (by decide) fun w h1 h4 => by simp [decode, decodeGroup8, h1, h4]
theorem encodedAs_shr : EncodedAs 0xF00F#16 0x8006#16 (fun w => .shr (fieldX w)) :=
  encodedAs_of_minor (c := 0x8#4) (n := 0x6#4) (by decide) fun w h1 h4 => by simp [decode, decodeGroup8, h1, h4]
theorem encodedAs_subnReg : EncodedAs 0xF00F#16 0x8007#16 (fun w => .subnReg (fieldX w) (fieldY w)) :=
  encodedAs_of_minor (c := 0x8#4) (n := 0x7#4) (by decide) fun w h1 h4 => by simp [decode, decodeGroup8, h1, h4]
theorem encodedAs_shl : EncodedAs 0xF00F#16 0x800E#16 (fun w => .shl (fieldX w)) :=
  encodedAs_of_minor (c := 0x8#4) (n := 0xE#4) (by decide) fun w h1 h4 => by simp [decode, decodeGroup8, h1, h4]
theorem encodedAs_skipIfKeyDown : EncodedAs 0xF0FF#16 0xE09E#16 (fun w => .skipIfKeyDown (fieldX w)) :=
  encodedAs_of_low (c := 0xE#4) (b := 0x9E#8) (by decide) fun w h1 hb => by simp [decode, decodeGroupE, h1, hb]
theorem encodedAs_skipIfKeyUp : EncodedAs 0xF0FF#16 0xE0A1#16 (fun w => .skipIfKeyUp (fieldX w)) :=
  encodedAs_of_low (c := 0xE#4) (b := 0xA1#8) (by decide) fun w h1 hb => by simp [decode, decodeGroupE, h1, hb]
theorem encodedAs_readDelay : EncodedAs 0xF0FF#16 0xF007#16 (fun w => .readDelay (fieldX w)) :=
  encodedAs_of_low (c := 0xF#4) (b := 0x07#8) (by decide) fun w h1 hb => by simp [decode, decodeGroupF, h1, hb]
theorem encodedAs_waitKey : EncodedAs 0xF0FF#16 0xF00A#16 (fun w => .waitKey (fieldX w)) :=
  encodedAs_of_low (c := 0xF#4) (b := 0x0A#8) (by decide) fun w h1 hb => by simp [decode, decodeGroupF, h1, hb]
theorem encodedAs_writeDelay : EncodedAs 0xF0FF#16 0xF015#16 (fun w => .writeDelay (fieldX w)) :=
  encodedAs_of_low (c := 0xF#4) (b := 0x15#8) (by decide) fun w h1 hb => by simp [decode, decodeGroupF, h1, hb]
theorem encodedAs_writeSound : EncodedAs 0xF0FF#16 0xF018#16 (fun w => .writeSound (fieldX w)) :=
  encodedAs_of_low (c := 0xF#4) (b := 0x18#8) (by decide) fun w h1 hb => by simp [decode, decodeGroupF, h1, hb]
theorem encodedAs_addIndex : EncodedAs 0xF0FF#16 0xF01E#16 (fun w => .addIndex (fieldX w)) :=
  encodedAs_of_low (c := 0xF#4) (b := 0x1E#8) (by decide) fun w h1 hb => by simp [decode, decodeGroupF, h1, hb]
theorem encodedAs_indexToGlyph : EncodedAs 0xF0FF#16 0xF029#16 (fun w => .indexToGlyph (fieldX w)) :=
  encodedAs_of_low (c := 0xF#4) (b := 0x29#8) (by decide) fun w h1 hb => by simp [decode, decodeGroupF, h1, hb]
theorem encodedAs_storeBCD : EncodedAs 0xF0FF#16 0xF033#16 (fun w => .storeBCD (fieldX w)) :=
  encodedAs_of_low (c := 0xF#4) (b := 0x33#8) (by decide) fun w h1 hb => by simp [decode, decodeGroupF, h1, hb]
theorem encodedAs_storeRegs : EncodedAs 0xF0FF#16 0xF055#16 (fun w => .storeRegs (fieldX w)) :=
  encodedAs_of_low (c := 0xF#4) (b := 0x55#8) (by decide) fun w h1 hb => by simp [decode, decodeGroupF, h1, hb]
theorem encodedAs_loadRegs : EncodedAs 0xF0FF#16 0xF065#16 (fun w => .loadRegs (fieldX w)) :=
  encodedAs_of_low (c := 0xF#4) (b := 0x65#8) (by decide) fun w h1 hb => by simp [decode, decodeGroupF, h1, hb]

end Sys2Proof.Machine
end

section
/-! PROOFS of O7: the nibble decoder against the mask and match table (30_encoding.md R64 to R66). A word of a row
decodes to that row's instruction; a decoded word is its instruction's encoding, which is a word of the row; and two
rows of one word have the number of the one decoded instruction. -/

namespace Sys2Proof

/-- Every word of the row decodes to an instruction with the row's number. -/
def OpcodeRow.Decodes (r : OpcodeRow) : Prop :=
  ∃ f : Word → Instr, Machine.EncodedAs r.mask r.matchBits f ∧ ∀ w, (f w).op = r.op

open Machine in
theorem decodes_of_mem_opcodeRowsLow : ∀ r ∈ opcodeRowsLow, r.Decodes := by
  simp only [opcodeRowsLow, List.forall_mem_cons]
  exact ⟨⟨_, encodedAs_clearScreen, fun _ => rfl⟩, ⟨_, encodedAs_ret, fun _ => rfl⟩,
    ⟨_, encodedAs_jump, fun _ => rfl⟩, ⟨_, encodedAs_call, fun _ => rfl⟩,
    ⟨_, encodedAs_skipEqImm, fun _ => rfl⟩, ⟨_, encodedAs_skipNeqImm, fun _ => rfl⟩,
    ⟨_, encodedAs_skipEqReg, fun _ => rfl⟩, ⟨_, encodedAs_loadImm, fun _ => rfl⟩,
    ⟨_, encodedAs_addImm, fun _ => rfl⟩, nofun⟩

open Machine in
theorem decodes_of_mem_opcodeRowsAlu : ∀ r ∈ opcodeRowsAlu, r.Decodes := by
  simp only [opcodeRowsAlu, List.forall_mem_cons]
  exact ⟨⟨_, encodedAs_move, fun _ => rfl⟩, ⟨_, encodedAs_orReg, fun _ => rfl⟩,
    ⟨_, encodedAs_andReg, fun _ => rfl⟩, ⟨_, encodedAs_xorReg, fun _ => rfl⟩,
    ⟨_, encodedAs_addReg, fun _ => rfl⟩, ⟨_, encodedAs_subReg, fun _ => rfl⟩,
    ⟨_, encodedAs_shr, fun _ => rfl⟩, ⟨_, encodedAs_subnReg, fun _ => rfl⟩,
    ⟨_, encodedAs_shl, fun _ => rfl⟩, nofun⟩

open Machine in
theorem decodes_of_mem_opcodeRowsMid : ∀ r ∈ opcodeRowsMid, r.Decodes := by
  simp only [opcodeRowsMid, List.forall_mem_cons]
  exact ⟨⟨_, encodedAs_skipNeqReg, fun _ => rfl⟩, ⟨_, encodedAs_setIndex, fun _ => rfl⟩,
    ⟨_, encodedAs_jumpPlusV0, fun _ => rfl⟩, ⟨_, encodedAs_random, fun _ => rfl⟩,
    ⟨_, encodedAs_draw, fun _ => rfl⟩, ⟨_, encodedAs_skipIfKeyDown, fun _ => rfl⟩,
    ⟨_, encodedAs_skipIfKeyUp, fun _ => rfl⟩, nofun⟩

open Machine in
theorem decodes_of_mem_opcodeRowsF : ∀ r ∈ opcodeRowsF, r.Decodes := by
  simp only [opcodeRowsF, List.forall_mem_cons]
  exact ⟨⟨_, encodedAs_readDelay, fun _ => rfl⟩, ⟨_, encodedAs_waitKey, fun _ => rfl⟩,
    ⟨_, encodedAs_writeDelay, fun _ => rfl⟩, ⟨_, encodedAs_writeSound, fun _ => rfl⟩,
    ⟨_, encodedAs_addIndex, fun _ => rfl⟩, ⟨_, encodedAs_indexToGlyph, fun _ => rfl⟩,
    ⟨_, encodedAs_storeBCD, fun _ => rfl⟩, ⟨_, encodedAs_storeRegs, fun _ => rfl⟩,
    ⟨_, encodedAs_loadRegs, fun _ => rfl⟩, nofun⟩

/-- A word that a row matches decodes to an instruction with the row's number. -/
theorem decode_of_matches {r : OpcodeRow} (hr : r ∈ opcodeMap) {w : Word} (hw : r.matches w = true) :
    ∃ i, decode w = .instr i ∧ i.op = r.op := by
  have hdec : r.Decodes := by
    simp only [opcodeMap, List.mem_append] at hr
    rcases hr with ((hr | hr) | hr) | hr
    · exact decodes_of_mem_opcodeRowsLow r hr
    · exact decodes_of_mem_opcodeRowsAlu r hr
    · exact decodes_of_mem_opcodeRowsMid r hr
    · exact decodes_of_mem_opcodeRowsF r hr
  obtain ⟨f, henc, hop⟩ := hdec
  exact ⟨f w, henc w (of_decide_eq_true hw), hop w⟩

/-- The row's number tells the row, because it is the row's place in the map. -/
theorem opcodeRow_eq_of_op_eq {r r' : OpcodeRow} (hr : r ∈ opcodeMap) (hr' : r' ∈ opcodeMap) (h : r.op = r'.op) :
    r = r' := by
  have hplace : ∀ (k : Nat) (hk : k < opcodeMap.length), opcodeMap[k].op = k := by decide
  obtain ⟨k, hk, rfl⟩ := List.mem_iff_getElem.1 hr
  obtain ⟨k', hk', rfl⟩ := List.mem_iff_getElem.1 hr'
  have heq : k = k' := (hplace k hk).symm.trans (h.trans (hplace k' hk'))
  subst heq
  rfl

open Laws.EncodingRow in
/-- The family EncodingRow as one statement over all instructions. -/
theorem encodingRow : ∀ i : Instr, Statement i
  | .clearScreen => clearScreen
  | .ret => ret
  | .jump addr => jump addr
  | .call addr => call addr
  | .skipEqImm x byte => skipEqImm x byte
  | .skipNeqImm x byte => skipNeqImm x byte
  | .skipEqReg x y => skipEqReg x y
  | .loadImm x byte => loadImm x byte
  | .addImm x byte => addImm x byte
  | .move x y => move x y
  | .orReg x y => orReg x y
  | .andReg x y => andReg x y
  | .xorReg x y => xorReg x y
  | .addReg x y => addReg x y
  | .subReg x y => subReg x y
  | .shr x => shr x
  | .subnReg x y => subnReg x y
  | .shl x => shl x
  | .skipNeqReg x y => skipNeqReg x y
  | .setIndex addr => setIndex addr
  | .jumpPlusV0 addr => jumpPlusV0 addr
  | .random x byte => random x byte
  | .draw x y n => draw x y n
  | .skipIfKeyDown x => skipIfKeyDown x
  | .skipIfKeyUp x => skipIfKeyUp x
  | .readDelay x => readDelay x
  | .waitKey x => waitKey x
  | .writeDelay x => writeDelay x
  | .writeSound x => writeSound x
  | .addIndex x => addIndex x
  | .indexToGlyph x => indexToGlyph x
  | .storeBCD x => storeBCD x
  | .storeRegs x => storeRegs x
  | .loadRegs x => loadRegs x

/-- The rows of Shr and Shl do not compare the `y` nibble (R68). -/
theorem mask_ignores_y : ∀ r ∈ opcodeMap, r.op = 15 ∨ r.op = 17 → 0xFF0F#16 &&& r.mask = r.mask := by
  decide

/-- A word that decodes to an instruction is matched by that instruction's row, because its encoding is. -/
theorem exists_row_of_decode {w : Word} {i : Instr} (h : decode w = .instr i) :
    ∃ r ∈ opcodeMap, r.op = i.op ∧ r.matches w = true := by
  obtain ⟨r, hget, hop, hmatch⟩ := encodingRow i
  have hr : r ∈ opcodeMap := List.mem_of_getElem? hget
  refine ⟨r, hr, hop, ?_⟩
  rw [encodesBack_of_decode h] at hmatch
  split at hmatch
  · next hy =>
    rw [← hop] at hy
    simpa only [OpcodeRow.matches, BitVec.and_assoc, mask_ignores_y r hr hy] using hmatch
  · exact hmatch

/-- Settles O7: a word decodes to one instruction only, so two rows that match it have one number. -/
theorem decoderFollowsTheOpcodeMap : Obligations.DecoderFollowsTheOpcodeMap := by
  refine fun w => ⟨fun i h => exists_row_of_decode h, fun r hr hw => decode_of_matches hr hw, ?_⟩
  intro r hr r' hr' hw hw'
  obtain ⟨i, hi, hop⟩ := decode_of_matches hr hw
  obtain ⟨i', hi', hop'⟩ := decode_of_matches hr' hw'
  cases hi.symm.trans hi'
  exact opcodeRow_eq_of_op_eq hr hr' (hop.symm.trans hop')

end Sys2Proof
end

section
/-! PROOFS of O8: the words of no row, by major opcode (30_encoding.md R67). -/

namespace Sys2Proof

/-! ### The verdict is an instruction or carries the word itself -/

theorem decodeGroup8_cases (w : Word) : (∃ i, decodeGroup8 w = .instr i) ∨ decodeGroup8 w = .unknown w := by
  dsimp only [decodeGroup8]
  split <;> simp

theorem decodeGroupE_cases (w : Word) : (∃ i, decodeGroupE w = .instr i) ∨ decodeGroupE w = .unknown w := by
  unfold decodeGroupE
  split <;> simp

theorem decodeGroupF_cases (w : Word) : (∃ i, decodeGroupF w = .instr i) ∨ decodeGroupF w = .unknown w := by
  dsimp only [decodeGroupF]
  split <;> simp

/-- Only the arms of the groups with holes have two answers; the arm `h_k` is the one for major opcode k - 1. -/
theorem decode_cases (w : Word) : (∃ i, decode w = .instr i) ∨ decode w = .unknown w := by
  dsimp only [decode]
  split
  case h_1 =>
    by_cases hclear : w = 0x00E0#16
    · exact .inl ⟨_, if_pos hclear⟩
    · by_cases hret : w = 0x00EE#16
      · exact .inl ⟨_, (if_neg hclear).trans (if_pos hret)⟩
      · exact .inr ((if_neg hclear).trans (if_neg hret))
  case h_6 | h_10 =>
    by_cases h4 : fieldN4 w = 0x0#4
    · exact .inl ⟨_, if_pos h4⟩
    · exact .inr (if_neg h4)
  case h_9 => exact decodeGroup8_cases w
  case h_15 => exact decodeGroupE_cases w
  case h_16 => exact decodeGroupF_cases w
  all_goals exact .inl ⟨_, rfl⟩

theorem raw_eq_of_decode {w raw : Word} (h : decode w = .unknown raw) : raw = w := by
  rcases decode_cases w with ⟨i, hi⟩ | hu
  · cases hi.symm.trans h
  · cases hu.symm.trans h; rfl

/-! ### The groups with holes -/

theorem decodeGroup8_eq_unknown_iff (w : Word) :
    decodeGroup8 w = .unknown w ↔ fieldN4 w ∈ [0x8#4, 0x9#4, 0xA#4, 0xB#4, 0xC#4, 0xD#4, 0xF#4] := by
  have hholes : ∀ n : BitVec 4, n ∉ [0x0#4, 0x1#4, 0x2#4, 0x3#4, 0x4#4, 0x5#4, 0x6#4, 0x7#4, 0xE#4] →
      n ∈ [0x8#4, 0x9#4, 0xA#4, 0xB#4, 0xC#4, 0xD#4, 0xF#4] := by decide
  dsimp only [decodeGroup8]
  split
  case h_10 => exact iff_of_true rfl (hholes _ (by simp_all))
  all_goals simp [*]

theorem decodeGroupE_eq_unknown_iff (w : Word) :
    decodeGroupE w = .unknown w ↔ fieldByte w ∉ [0x9E#8, 0xA1#8] := by
  unfold decodeGroupE
  split <;> simp_all

theorem decodeGroupF_eq_unknown_iff (w : Word) :
    decodeGroupF w = .unknown w ↔
      fieldByte w ∉ [0x07#8, 0x0A#8, 0x15#8, 0x18#8, 0x1E#8, 0x29#8, 0x33#8, 0x55#8, 0x65#8] := by
  dsimp only [decodeGroupF]
  split <;> simp_all

/-- By the major opcode: each disjunct is what one group leaves open, and every other group has no hole. -/
theorem decode_eq_unknown_iff (w : Word) : decode w = .unknown w ↔
    (fieldN1 w = 0x0#4 ∧ w ≠ 0x00E0#16 ∧ w ≠ 0x00EE#16) ∨
    (fieldN1 w = 0x5#4 ∧ fieldN4 w ≠ 0x0#4) ∨
    (fieldN1 w = 0x8#4 ∧ fieldN4 w ∈ [0x8#4, 0x9#4, 0xA#4, 0xB#4, 0xC#4, 0xD#4, 0xF#4]) ∨
    (fieldN1 w = 0x9#4 ∧ fieldN4 w ≠ 0x0#4) ∨
    (fieldN1 w = 0xE#4 ∧ fieldByte w ∉ [0x9E#8, 0xA1#8]) ∨
    (fieldN1 w = 0xF#4 ∧
      fieldByte w ∉ [0x07#8, 0x0A#8, 0x15#8, 0x18#8, 0x1E#8, 0x29#8, 0x33#8, 0x55#8, 0x65#8]) := by
  rw [← decodeGroup8_eq_unknown_iff, ← decodeGroupE_eq_unknown_iff, ← decodeGroupF_eq_unknown_iff]
  dsimp only [decode]
  split
  case h_1 h1 =>
    rw [h1]
    by_cases hclear : w = 0x00E0#16
    · simp [hclear]
    · by_cases hret : w = 0x00EE#16
      · simp [hret]
      · simp [hclear, hret]
  case h_16 =>
    have h1 : fieldN1 w = 0xF#4 := eq_F_of_not_mem _ (by simp_all)
    simp [h1]
  all_goals simp [*]

/-- Settles O8: the same list, the fields read as numbers of the word. -/
theorem illegalWordsAreExactly : Obligations.IllegalWordsAreExactly := by
  refine fun w => ⟨fun raw h => raw_eq_of_decode h, ?_⟩
  rw [decode_eq_unknown_iff]
  simp only [← BitVec.toNat_inj, List.mem_cons, List.not_mem_nil, ne_eq, fieldN1_toNat, fieldN4_toNat,
    fieldByte_toNat, BitVec.toNat_ofNat]

end Sys2Proof
end

section
/-! PROOFS of O13: every arm of `exec` completes or faults, so no operation is refused (30_encoding.md R69,
60_exceptions.md R209). -/

namespace Sys2Proof.Machine

theorem accessRam_ne_refused {a n : Nat} {e : Result} {r : Refusal} (he : e ≠ .refused r) :
    accessRam a n e ≠ .refused r := by
  rcases accessRam_cases a n e with ⟨_, heq⟩ | ⟨_, heq⟩
  · rwa [heq]
  · rw [heq]; exact nofun

theorem exec_ne_refused (i : Instr) (s : State) (r : Refusal) : exec i s ≠ .refused r := by
  cases i with
  | call addr =>
    by_cases h : s.sp.val < 16
    · rw [exec_call_next addr s h]; exact nofun
    · rw [exec_call_fault addr s (by omega)]; exact nofun
  | ret =>
    by_cases h : 0 < s.sp.val
    · rw [exec_ret_next s h]; exact nofun
    · rw [exec_ret_fault s (by omega)]; exact nofun
  | waitKey x =>
    rcases exec_waitKey_cases x s with h | ⟨_, _, h⟩
    · rw [h]; exact nofun
    · rw [h]; exact nofun
  | draw _ _ _ | storeBCD _ | storeRegs _ | loadRegs _ => exact accessRam_ne_refused nofun
  | _ =>
    -- every other arm is one unconditional update of the state
    exact nofun

theorem cycle_ne_refused (s : State) (r : Refusal) : cycle s ≠ .refused r := by
  rcases cycle_cases s with ⟨_, h⟩ | ⟨_, ⟨_, _, h⟩ | ⟨i, _, h⟩⟩
  · rw [h]; exact nofun
  · rw [h]; exact nofun
  · rw [h]; exact exec_ne_refused i s r

theorem hostLoad_ne_refused (image : List Byte) (s : State) (r : Refusal) : hostLoad image s ≠ .refused r := by
  unfold hostLoad
  split <;> exact nofun

theorem perform_ne_refused (op : HostOp) (s : State) (r : Refusal) : perform op s ≠ .refused r := by
  cases op with
  | step => exact cycle_ne_refused s r
  | load image => exact hostLoad_ne_refused image s r
  | tick | setKey _ _ | reset | readFramebuffer | readTimers => exact nofun

/-- Settles O13: a step is a host operation. -/
theorem nothingIsRefused : Obligations.NothingIsRefused :=
  ⟨exec_ne_refused, fun s r => perform_ne_refused s.nextOp.1 s.nextOp.2 r⟩

end Sys2Proof.Machine
end

section
/-! PROOFS of O44: the effect of every instruction against its row of the control table (30_encoding.md R70). The
registers are bounded by `exec_regsKeptBut`, RAM to the byte, and the other parts as a whole. -/

namespace Sys2Proof.Machine

/-- Storing a block of `n` bytes and going on keeps every byte outside it (20_memory.md R44). -/
theorem State.ramKeptOutside_storeBytes (s : State) {bs : List Byte} {n : Nat} (hn : bs.length = n) :
    RamKeptOutside s.i.toNat n s (s.storeBytes s.base bs).advance := by
  intro b hb
  rw [State.advance_byteAt, State.byteAt_storeBytes, State.base, if_neg (by omega)]

/-- An instruction writes no byte of RAM outside its row's bytes at `i`. -/
theorem exec_ramKeptOutside {i : Instr} {s t : State} (h : exec i s = .next t) :
    RamKeptOutside s.i.toNat (controls i).ramWrite s t := by
  cases i with
  | storeBCD x =>
    obtain ⟨_, ⟨⟩⟩ := (accessRam_eq_next_iff _ _ _ t).1 h
    exact s.ramKeptOutside_storeBytes rfl
  | storeRegs x =>
    obtain ⟨_, ⟨⟩⟩ := (accessRam_eq_next_iff _ _ _ t).1 h
    exact s.ramKeptOutside_storeBytes (s.length_regsUpTo x)
  | call addr => obtain ⟨_, rfl⟩ := (exec_call_eq_next_iff addr s t).1 h; exact fun _ _ => rfl
  | ret => obtain ⟨_, rfl⟩ := (exec_ret_eq_next_iff s t).1 h; exact fun _ _ => rfl
  | waitKey x =>
    rcases exec_waitKey_cases x s with hx | ⟨_, _, hx⟩ <;> cases hx.symm.trans h <;> exact fun _ _ => rfl
  | draw _ _ _ | loadRegs _ =>
    obtain ⟨_, ⟨⟩⟩ := (accessRam_eq_next_iff _ _ _ t).1 h
    simp [RamKeptOutside]
  | _ =>
    cases h
    simp [RamKeptOutside]

/-- The parts an instruction can only change as a whole: it keeps each that its row does not name. -/
theorem exec_keeps_unnamed_parts {i : Instr} {s t : State} (h : exec i s = .next t) :
    ((controls i).indexWrite = false → t.i = s.i) ∧
    ((controls i).stk = .idle → t.sp = s.sp ∧ t.stack = s.stack) ∧
    ((controls i).fb = .idle → t.fb = s.fb) ∧
    ((controls i).tmr ≠ .writeDelay → t.delayTimer = s.delayTimer) ∧
    ((controls i).tmr ≠ .writeSound → t.soundTimer = s.soundTimer) ∧
    ((controls i).rnd = false → t.rnd = s.rnd ∧ t.draws = s.draws) ∧
    t.keys = s.keys ∧ t.schedule = s.schedule := by
  cases i with
  | call addr => obtain ⟨_, rfl⟩ := (exec_call_eq_next_iff addr s t).1 h; simp [controls]
  | ret => obtain ⟨_, rfl⟩ := (exec_ret_eq_next_iff s t).1 h; simp [controls]
  | waitKey x =>
    rcases exec_waitKey_cases x s with hx | ⟨_, _, hx⟩ <;> cases hx.symm.trans h <;> simp
  | draw _ _ _ | storeBCD _ | storeRegs _ | loadRegs _ =>
    obtain ⟨_, ⟨⟩⟩ := (accessRam_eq_next_iff _ _ _ t).1 h
    simp [controls]
  | _ =>
    cases h
    simp [controls]

/-- Settles O44, column by column. -/
theorem controlTableBoundsEveryEffect : Obligations.ControlTableBoundsEveryEffect := by
  intro i s t h
  obtain ⟨hindex, hstack, hdisplay, hdelay, hsound, hrandom, hkeys, hschedule⟩ := exec_keeps_unnamed_parts h
  exact ⟨exec_regsKeptBut h, hindex, hstack, exec_ramKeptOutside h, hdisplay, hdelay, hsound, hrandom, hkeys,
    hschedule, exec_keeps_params h⟩

end Sys2Proof.Machine
end

section
/-! PROOFS of O16 to O20: the control-flow instructions (40_control_flow.md). A jump writes `pc` only; Call and Return
write `pc` and the stack, and each has one lemma that says what it leaves, from which the pair follows. -/

namespace Sys2Proof.Machine

/-! ### Frames and targets -/

/-- Writing `pc` changes no other part (10_state.md R23). -/
theorem State.onlyChanges_setPc (parts : List Part) (s : State) (a : Word) : OnlyChanges parts s (s.setPc a) := by
  intro p _
  cases p <;> simp [Part.same]

/-- Writing the stack array and the depth changes the stack only (10_state.md R15). -/
theorem State.onlyChanges_stack (s : State) (st : Vector Word 16) (d : Fin 17) :
    OnlyChanges [.stack] s { s with stack := st, sp := d } := by
  intro p hp
  cases p with
  | stack => exact absurd List.mem_cons_self hp
  | regs | ram => exact fun _ => rfl
  | randomPort => exact ⟨rfl, rfl⟩
  | _ => rfl

@[simp] theorem zextAddr_toNat_word (a : Word) : zextAddr a.toNat = a := by simp [zextAddr]

/-- A 12-bit address and a byte sum to less than 2^16, so `pc` holds the sum itself (40_control_flow.md R104). -/
theorem zextAddr_add_zextByte_toNat {addr : Nat} (h : addr < 4096) (b : Byte) :
    (zextAddr addr + zextByte b).toNat = addr + b.toNat := by
  have := b.isLt
  rw [BitVec.toNat_add, zextAddr_toNat h, zextByte_toNat]
  omega

/-! ### Jumps -/

/-- Settles O16: Jump is one write of `pc`, which writes back the old value when the target is `pc`. -/
theorem jumpSetsPcAndNothingElse : Obligations.JumpSetsPcAndNothingElse := by
  refine ⟨encodedAs_jump, fun s addr haddr => ?_, fun s => ?_⟩
  · exact ⟨_, exec_jump addr s, zextAddr_toNat haddr, s.onlyChanges_setPc _ _⟩
  · rw [exec_jump, zextAddr_toNat_word]
    rfl

/-- Settles O20: JumpPlusV0 is one write of `pc`, and the sum cannot wrap. -/
theorem jumpPlusV0AddsTheFirstRegister : Obligations.JumpPlusV0AddsTheFirstRegister :=
  ⟨encodedAs_jumpPlusV0, fun s addr haddr =>
    ⟨_, exec_jumpPlusV0 addr s, zextAddr_add_zextByte_toNat haddr (s.reg 0), s.onlyChanges_setPc _ _⟩⟩

/-! ### Call and Return -/

/-- What Call leaves when a slot is free, whatever its operand (40_control_flow.md R102). -/
theorem completes_call {s : State} (addr : Nat) (hsp : s.sp.val < 16) :
    Completes (.call addr) s fun t =>
      t.pc = zextAddr addr ∧ t.sp.val = s.sp.val + 1 ∧
      (∀ k : Fin 16, t.stack[k.val] = if k.val = s.sp.val then s.pc + 2#16 else s.stack[k.val]) ∧
      OnlyChanges [.stack] s t := by
  refine ⟨_, exec_call_next addr s hsp, rfl, rfl, fun k => ?_,
    (s.onlyChanges_stack _ _).trans (State.onlyChanges_setPc _ _ _)⟩
  rw [State.setPc_stack, Vector.getElem_set]
  simp only [eq_comm, State.npc]

/-- What Return leaves when a return address is held (40_control_flow.md R103). -/
theorem completes_ret {s : State} (hsp : 0 < s.sp.val) :
    Completes .ret s fun t =>
      t.sp.val + 1 = s.sp.val ∧ t.stack = s.stack ∧ (∀ k : Fin 16, k.val = t.sp.val → t.pc = s.stack[k.val]) ∧
      OnlyChanges [.stack] s t := by
  refine ⟨_, exec_ret_next s hsp, Nat.sub_add_cancel hsp, rfl, fun k hk => ?_,
    (s.onlyChanges_stack s.stack _).trans (State.onlyChanges_setPc _ _ _)⟩
  have hslot : k.val = s.sp.val - 1 := hk
  simp only [State.setPc_pc, hslot]

/-- Settles O17: Call by whether a slot is free, with the target of a 12-bit address as a number. -/
theorem callPushesTheNextAddress : Obligations.CallPushesTheNextAddress := by
  refine ⟨encodedAs_call, fun s addr haddr => ⟨fun hsp => ?_, exec_call_fault addr s⟩⟩
  obtain ⟨t, hexec, hpc, hrest⟩ := completes_call addr hsp
  exact ⟨t, hexec, hpc ▸ zextAddr_toNat haddr, hrest⟩

/-- Settles O18: Return by whether a return address is held. -/
theorem returnPopsTheLastPush : Obligations.ReturnPopsTheLastPush :=
  ⟨encodedAs_ret, fun s => ⟨completes_ret, exec_ret_fault s⟩⟩

/-- Settles O19: the slot Return reads is the old top of the stack, the one Call wrote. -/
theorem returnUndoesCall : Obligations.ReturnUndoesCall := by
  intro s addr hsp
  obtain ⟨t, hcall, _, htsp, htslot, _⟩ := completes_call addr hsp
  refine ⟨t, hcall, fun t' hsp' hstack' => ?_⟩
  obtain ⟨u, hret, husp, _, hupc, _⟩ := completes_ret (s := t') (by rw [hsp', htsp]; omega)
  have hsame : u.sp.val = s.sp.val := by rw [hsp', htsp] at husp; omega
  refine ⟨u, hret, ?_, Fin.ext hsame⟩
  calc
    u.pc = t'.stack[s.sp.val] := hupc ⟨s.sp.val, hsp⟩ hsame.symm
    _ = t.stack[s.sp.val] := by simp only [hstack']
    _ = s.pc + 2#16 := (htslot ⟨s.sp.val, hsp⟩).trans (if_pos rfl)

end Sys2Proof.Machine
end

section
/-! PROOFS of O21 to O24: the instructions that write one register, and the flag writers of group 8 with a destination
other than `v[0xF]` (41_alu.md, 42_immediate_compare.md R130, R131). One lemma for each of the two kinds of write says
what it leaves; the instructions then differ only in the byte and the flag they compute. -/

namespace Sys2Proof.Machine

section writes

variable {i : Instr} {s : State} {x : Reg} {r : Byte} {f : Bool} {n m : Nat}

theorem Completes.imp {p q : State → Prop} (h : Completes i s p) (hpq : ∀ t, p t → q t) : Completes i s q :=
  Exists.imp (fun t => And.imp_right (hpq t)) h

/-- An instruction that writes one byte to `v[x]` and goes on changes nothing else, `v[0xF]` included where that is
another register (92_eei_decisions.md D9). -/
theorem completes_setReg (hexec : exec i s = .next (s.setReg x r).advance) :
    Completes i s fun t =>
      t.reg x = r ∧ RegsKeptBut [x] s t ∧ t.pc = s.pc + 2#16 ∧ OnlyChanges [.regs] s t := by
  refine ⟨_, hexec, s.reg_setReg_self x r, fun k hk => ?_, rfl,
    (s.onlyChanges_setReg _ _).trans (State.onlyChanges_advance _ _)⟩
  exact s.reg_setReg_ne (List.ne_of_not_mem_cons hk) r

/-- An instruction that writes a result to another register than `v[0xF]`, and a flag, leaves both, whatever
VF_ALIAS_ORDER is, and changes nothing else (10_state.md R31). -/
theorem completes_result_and_flag (hx : x ≠ flagReg)
    (hexec : exec i s = .next (s.writeResultAndFlag s.params.vfAliasOrder x r f).advance)
    (hresult : r.toNat = n) (hflag : (flagByte f).toNat = m) :
    Completes i s fun t =>
      (t.reg x).toNat = n ∧ (t.reg 15).toNat = m ∧ RegsKeptBut [x, 15] s t ∧ t.pc = s.pc + 2#16 ∧
      OnlyChanges [.regs] s t := by
  refine ⟨_, hexec, ?_, ?_, fun k hk => ?_, rfl,
    (s.onlyChanges_writeResultAndFlag _ _ _ _).trans (State.onlyChanges_advance _ _)⟩
  · rwa [State.advance_reg, reg_writeResultAndFlag_of_ne _ _ hx, if_neg hx, if_pos rfl]
  · rwa [State.advance_reg, reg_writeResultAndFlag_of_ne _ _ hx, if_pos rfl]
  · obtain ⟨hkx, hkflag⟩ : k ≠ x ∧ k ≠ flagReg := by simpa using hk
    rw [State.advance_reg, reg_writeResultAndFlag_of_ne _ _ hx, if_neg hkflag, if_neg hkx]

end writes

/-- Settles O21: each of the three is one register write, of the byte it copies. -/
theorem copiesIntoARegister : Obligations.CopiesIntoARegister :=
  ⟨encodedAs_move, encodedAs_loadImm, encodedAs_readDelay, fun s x y byte =>
    ⟨completes_setReg (exec_move x y s), completes_setReg (exec_loadImm x byte s),
     completes_setReg (exec_readDelay x s)⟩⟩

/-- Settles O22: each of the four is one register write, and the byte written is read bit by bit or as a number. -/
theorem logicAndAddImmWriteNoFlag : Obligations.LogicAndAddImmWriteNoFlag := by
  refine ⟨encodedAs_orReg, encodedAs_andReg, encodedAs_xorReg, encodedAs_addImm, fun s x y byte => ⟨?_, ?_, ?_, ?_⟩⟩
  · exact (completes_setReg (exec_orReg x y s)).imp fun t ⟨hx, hframe⟩ =>
      ⟨fun k _ => by rw [hx, BitVec.getLsbD_or], hframe⟩
  · exact (completes_setReg (exec_andReg x y s)).imp fun t ⟨hx, hframe⟩ =>
      ⟨fun k _ => by rw [hx, BitVec.getLsbD_and], hframe⟩
  · exact (completes_setReg (exec_xorReg x y s)).imp fun t ⟨hx, hframe⟩ =>
      ⟨fun k _ => by rw [hx, BitVec.getLsbD_xor], hframe⟩
  · exact (completes_setReg (exec_addImm x byte s)).imp fun t ⟨hx, hframe⟩ =>
      ⟨by rw [hx, BitVec.toNat_add], hframe⟩

/-- Settles O23: the two operands are read before either write, and the flag is the carry or the not-borrow of the
subtraction as ordered. -/
theorem addAndSubtractWithFlag : Obligations.AddAndSubtractWithFlag :=
  ⟨encodedAs_addReg, encodedAs_subReg, encodedAs_subnReg, fun s x y hx =>
    ⟨completes_result_and_flag hx (exec_addReg x y s) (BitVec.toNat_add _ _) (flagByte_carryOut_toNat _ _),
     completes_result_and_flag hx (exec_subReg x y s) (toNat_byte_sub _ _) (flagByte_noBorrow_toNat _ _),
     completes_result_and_flag hx (exec_subnReg x y s) (toNat_byte_sub _ _) (flagByte_noBorrow_toNat _ _)⟩⟩

/-- Settles O24: a shift by one halves or doubles the byte, and the bit shifted out is its remainder or its overflow. -/
theorem shiftsWithTheBitShiftedOut : Obligations.ShiftsWithTheBitShiftedOut :=
  ⟨encodedAs_shr, encodedAs_shl, fun s x hx =>
    ⟨completes_result_and_flag hx (exec_shr x s) (toNat_byte_shiftRight_one _) (flagByte_shiftedOutRight_toNat _),
     completes_result_and_flag hx (exec_shl x s) (toNat_byte_shiftLeft_one _) (flagByte_shiftedOutLeft_toNat _)⟩⟩

end Sys2Proof.Machine
end

section
/-! PROOFS of O27: the compare-and-skip instructions (42_immediate_compare.md R132 to R136). One lemma says what a skip
leaves, for any condition; one for each polarity reads the condition as an equality of two bytes. -/

namespace Sys2Proof.Machine

/-- A skip, taken or not, writes `pc` only (42_immediate_compare.md R136). -/
theorem State.onlyChanges_skipIf (parts : List Part) (s : State) (c : Bool) : OnlyChanges parts s (s.skipIf c) := by
  cases c with
  | false => exact s.onlyChanges_advance parts
  | true => exact s.onlyChanges_setPc parts _

/-- The two targets of a skip, counted from the instruction (42_immediate_compare.md R136). -/
theorem State.skipIf_pc_eq (s : State) (c : Bool) : (s.skipIf c).pc = if c then s.pc + 4#16 else s.pc + 2#16 := by
  cases c with
  | false => rfl
  | true => exact BitVec.add_assoc s.pc 2#16 2#16

section skips

variable {i : Instr} {s : State} {c : Bool} {a b : Byte}

theorem completes_skipIf (hexec : exec i s = .next (s.skipIf c)) :
    Completes i s fun t => t.pc = (if c then s.pc + 4#16 else s.pc + 2#16) ∧ OnlyChanges [] s t :=
  ⟨_, hexec, s.skipIf_pc_eq c, s.onlyChanges_skipIf [] c⟩

theorem completes_skipIf_eq (hexec : exec i s = .next (s.skipIf (a == b))) :
    Completes i s fun t => t.pc = (if a = b then s.pc + 4#16 else s.pc + 2#16) ∧ OnlyChanges [] s t := by
  simpa only [beq_iff_eq] using completes_skipIf hexec

theorem completes_skipIf_ne (hexec : exec i s = .next (s.skipIf (a != b))) :
    Completes i s fun t => t.pc = (if a = b then s.pc + 2#16 else s.pc + 4#16) ∧ OnlyChanges [] s t := by
  simpa only [bne_iff_ne, ne_eq, ite_not] using completes_skipIf hexec

end skips

/-- The words of groups 5 and 9 with a low nibble other than 0 are among the illegal words (30_encoding.md R67). -/
theorem decode_eq_unknown_of_minor_ne_zero {w : Word} (hmajor : w.toNat / 4096 = 5 ∨ w.toNat / 4096 = 9)
    (hminor : w.toNat % 16 ≠ 0) : decode w = .unknown w := by
  obtain ⟨_, hillegal⟩ := illegalWordsAreExactly w
  rw [hillegal]
  rcases hmajor with h5 | h9
  · exact .inr (.inl ⟨h5, hminor⟩)
  · exact .inr (.inr (.inr (.inl ⟨h9, hminor⟩)))

/-- Settles O27: the four are one skip, on an equality or on its negation, with an immediate or a register. -/
theorem compareAndSkip : Obligations.CompareAndSkip :=
  ⟨encodedAs_skipEqImm, encodedAs_skipNeqImm, encodedAs_skipEqReg, encodedAs_skipNeqReg,
   fun _ => decode_eq_unknown_of_minor_ne_zero, fun s x y byte =>
    ⟨completes_skipIf_eq (exec_skipEqImm x byte s), completes_skipIf_ne (exec_skipNeqImm x byte s),
     completes_skipIf_eq (exec_skipEqReg x y s), completes_skipIf_ne (exec_skipNeqReg x y s)⟩⟩

end Sys2Proof.Machine
end

section
/-! PROOFS of O30 and O31: the instructions that write `i` (43_index.md). One lemma says what a write of `i` leaves;
the three then differ only in the number written, and each number is a fact about 16-bit arithmetic. -/

namespace Sys2Proof.Machine

/-- Writing `i` changes no other part (10_state.md R14). -/
theorem State.onlyChanges_setIndex (s : State) (a : Word) : OnlyChanges [.index] s (s.setIndex a) := by
  intro p hp
  cases p with
  | index => exact absurd List.mem_cons_self hp
  | _ => simp [Part.same]

/-- An instruction that writes `i` and goes on leaves the number written there, unmasked (92_eei_decisions.md D6), and
changes nothing else. -/
theorem completes_setIndex {i : Instr} {s : State} {a : Word} {n : Nat}
    (hexec : exec i s = .next (s.setIndex a).advance) (ha : a.toNat = n) :
    Completes i s fun t => t.i.toNat = n ∧ t.pc = s.pc + 2#16 ∧ OnlyChanges [.index] s t :=
  ⟨_, hexec, ha, rfl, (s.onlyChanges_setIndex a).trans (State.onlyChanges_advance _ _)⟩

/-- AddIndex's sum wraps at 16 bits (43_index.md R141). -/
theorem toNat_add_zextByte (a : Word) (b : Byte) : (a + zextByte b).toNat = (a.toNat + b.toNat) % 65536 := by
  rw [BitVec.toNat_add, zextByte_toNat]

/-- Five times any byte is at most 1275, so IndexToGlyph's product is the number itself (43_index.md R142). -/
theorem toNat_five_mul_zextByte (b : Byte) : (5#16 * zextByte b).toNat = 5 * b.toNat := by
  have hb := b.isLt
  rw [BitVec.toNat_mul, zextByte_toNat, BitVec.toNat_ofNat]
  omega

/-- Settles O30: SetIndex is one write of `i`, and a 12-bit address is zero-extended to itself. -/
theorem setIndexLoadsTheAddress : Obligations.SetIndexLoadsTheAddress :=
  ⟨encodedAs_setIndex, fun s addr haddr => completes_setIndex (exec_setIndex addr s) (zextAddr_toNat haddr)⟩

/-- Settles O31: each of the two is one write of `i`, of the wrapping sum or of the product that cannot wrap. -/
theorem indexArithmetic : Obligations.IndexArithmetic :=
  ⟨encodedAs_addIndex, encodedAs_indexToGlyph, fun s x =>
    ⟨completes_setIndex (exec_addIndex x s) (toNat_add_zextByte s.i (s.reg x)),
     completes_setIndex (exec_indexToGlyph x s) (toNat_five_mul_zextByte (s.reg x))⟩⟩

end Sys2Proof.Machine
end

section
/-! PROOFS of O33: Random (44_random.md R150, R151). What the random port delivers, one equation for each form of the
injected source; then Random as one draw and one register write. -/

namespace Sys2Proof.Machine

/-! ### The random port -/

theorem State.randomByte_of_rnd_cons {s : State} {r : Byte} {later : List Byte} (h : s.rnd = r :: later) :
    s.randomByte = r := by simp [State.randomByte, h]

theorem State.randomByte_of_rnd_nil {s : State} (h : s.rnd = []) : s.randomByte = Config.randomByte s.draws := by
  simp [State.randomByte, h]

/-- A draw changes the random port only (44_random.md R150). -/
theorem State.onlyChanges_consumeDraw (s : State) : OnlyChanges [.randomPort] s s.consumeDraw := by
  intro p hp
  cases p with
  | randomPort => exact absurd List.mem_cons_self hp
  | _ => simp [Part.same]

/-- A frame may list more parts than it has to. -/
theorem OnlyChanges.mono {parts parts' : List Part} {s t : State} (h : OnlyChanges parts s t)
    (hsub : parts ⊆ parts') : OnlyChanges parts' s t :=
  fun p hp => h p fun hmem => hp (hsub hmem)

/-! ### Random -/

/-- Random is one draw, whatever the source holds, and one register write; the two frames compose
(44_random.md R150). -/
theorem completes_random (x : Reg) (byte : Byte) (s : State) :
    Completes (.random x byte) s fun t =>
      t.reg x = s.randomByte &&& byte ∧ t.rnd = s.rnd.tail ∧ t.draws = s.draws + 1 ∧
      RegsKeptBut [x] s t ∧ t.pc = s.pc + 2#16 ∧ OnlyChanges [.regs, .randomPort] s t := by
  have hkept : RegsKeptBut [x] s (s.consumeDraw.setReg x (s.randomByte &&& byte)).advance := fun k hk =>
    s.consumeDraw.reg_setReg_ne (List.ne_of_not_mem_cons hk) _
  have hframe : OnlyChanges [.regs, .randomPort] s (s.consumeDraw.setReg x (s.randomByte &&& byte)).advance :=
    ((s.onlyChanges_consumeDraw.mono (by simp)).trans
      ((s.consumeDraw.onlyChanges_setReg _ _).mono (by simp))).trans (State.onlyChanges_advance _ _)
  exact ⟨_, exec_random x byte s, s.consumeDraw.reg_setReg_self x _, rfl, rfl, hkept, rfl, hframe⟩

/-- Settles O33: the one draw is the head of the injected source, or the free value where nothing is injected. -/
theorem randomMasksOneDraw : Obligations.RandomMasksOneDraw := by
  refine ⟨encodedAs_random, fun s x byte => (completes_random x byte s).imp ?_⟩
  rintro t ⟨hreg, hrnd, hrest⟩
  refine ⟨fun r later hs => ?_, fun hs => ?_, hrest⟩
  · rw [hreg, hrnd, State.randomByte_of_rnd_cons hs, hs]
    exact ⟨rfl, rfl⟩
  · rw [hreg, hrnd, State.randomByte_of_rnd_nil hs, hs]
    exact ⟨rfl, rfl⟩

end Sys2Proof.Machine
end

section
/-! PROOFS of O35, O36, O37: ClearScreen and Draw (45_display.md). What a write of the framebuffer leaves alone; the
pixels the sprite loop plots are those SpriteCovers speaks of; then Draw as one framebuffer write and one flag write.
That a second Draw undoes the first is read off the pixel law, with no second look at the loop. -/

namespace Sys2Proof.Machine

/-! ### The framebuffer as a part of the state -/

/-- Writing the framebuffer changes no other part (10_state.md R18). -/
theorem State.onlyChanges_setFb (s : State) (fb : Framebuffer) : OnlyChanges [.display] s (s.setFb fb) := by
  intro p hp
  cases p with
  | display => exact absurd List.mem_cons_self hp
  | _ => simp [Part.same]

/-- Settles O35: ClearScreen is one framebuffer write, of the blank framebuffer. -/
theorem clearScreenTurnsEveryPixelOff : Obligations.ClearScreenTurnsEveryPixelOff :=
  ⟨encodedAs_clearScreen, fun s => ⟨_, exec_clearScreen s, Framebuffer.pixel_blank, rfl,
    (s.onlyChanges_setFb _).trans (State.onlyChanges_advance _ _)⟩⟩

/-! ### The pixels a sprite covers -/

section covers

variable {s t : State} {cx cy n : Nat} {py : Fin 32} {px : Fin 64}

/-- The pixels the sprite loop plots from the bytes at `i` are the pixels the sprite covers. -/
theorem mem_spritePixels_iff_spriteCovers :
    (py, px) ∈ spritePixels cx cy 0 (s.bytesAt s.base n) ↔ SpriteCovers s cx cy n py px := by
  rw [mem_spritePixels, State.length_bytesAt]
  refine exists_congr fun row => exists_congr fun col => and_congr_right fun hrow => ?_
  simp only [State.getD_bytesAt, if_pos hrow, spriteBit, wrapRow, wrapColumn, Fin.ext_iff, Nat.zero_add]
  exact ⟨fun ⟨hcol, hbit, hy, hx⟩ => ⟨hcol, hy, hx, hbit⟩, fun ⟨hcol, hy, hx, hbit⟩ => ⟨hcol, hbit, hy, hx⟩⟩

/-- The covered pixels depend on RAM and `i` only, beside the coordinates. -/
theorem spriteCovers_congr (hram : Part.same .ram s t) (hi : t.i = s.i) :
    SpriteCovers t cx cy n py px ↔ SpriteCovers s cx cy n py px := by
  have hbyte : ∀ a, t.byteAt a = s.byteAt a := hram
  simp only [SpriteCovers, State.base, hi, hbyte]

end covers

/-! ### Draw -/

section loop

variable (s : State) (cx cy : Nat) {n : Nat} (hn : n < 16)
include hn

/-- Every pixel after the sprite loop: flipped exactly when it is covered (45_display.md R155). -/
theorem drawRows_pixel_iff (py : Fin 32) (px : Fin 64) :
    (drawRows cx cy 0 (s.bytesAt s.base n) (s.fb, false)).1.pixel py px = true ↔
      (s.fb.pixel py px = true ↔ ¬ SpriteCovers s cx cy n py px) := by
  have hlen : (s.bytesAt s.base n).length ≤ 32 := by rw [State.length_bytesAt]; omega
  rw [(drawRows_spec cx cy _ hlen s.fb).1, bne_iff_ne, ne_eq, Bool.eq_iff_iff, decide_eq_true_iff,
    mem_spritePixels_iff_spriteCovers]
  by_cases hcovers : SpriteCovers s cx cy n py px
  · simp only [hcovers, iff_true, not_true_eq_false, iff_false]
  · simp only [hcovers, iff_false, Classical.not_not, not_false_eq_true, iff_true]

/-- The collision bit of the sprite loop: set exactly when a covered pixel was lit before (45_display.md R155). -/
theorem drawRows_collision_iff :
    (drawRows cx cy 0 (s.bytesAt s.base n) (s.fb, false)).2 = true ↔
      ∃ (py : Fin 32) (px : Fin 64), SpriteCovers s cx cy n py px ∧ s.fb.pixel py px = true := by
  have hlen : (s.bytesAt s.base n).length ≤ 32 := by rw [State.length_bytesAt]; omega
  simp only [(drawRows_spec cx cy _ hlen s.fb).2, List.any_eq_true, Prod.exists, mem_spritePixels_iff_spriteCovers]

end loop

/-- Settles O36: Draw is one framebuffer write and one flag write of what the sprite loop answers for the old
coordinates, and the two frames compose. -/
theorem drawFlipsTheSpriteAndReportsCollision : Obligations.DrawFlipsTheSpriteAndReportsCollision := by
  refine ⟨encodedAs_draw, fun s x y n hn hin => ⟨_, (exec_draw x y n s).trans (accessRam_of_inside hin _),
    drawRows_pixel_iff s _ _ hn, ?_, ?_, fun k hk => ?_, rfl, ?_⟩⟩
  · rw [State.advance_reg, State.reg_setReg_self]
    exact (flagByte_cases _).symm
  · rw [State.advance_reg, State.reg_setReg_self]
    exact (flagByte_eq_one_iff _).trans (drawRows_collision_iff s _ _ hn)
  · exact State.reg_setReg_ne _ (List.ne_of_not_mem_cons hk) _
  · exact (((s.onlyChanges_setFb _).mono (by simp)).trans ((State.onlyChanges_setReg _ _ _).mono (by simp))).trans
      (State.onlyChanges_advance _ _)

/-- Settles O37: both draws cover the same pixels, so each is flipped twice, and a pixel the first one turned on is
covered and lit when the second one begins. -/
theorem drawingTwiceRestoresTheFramebuffer : Obligations.DrawingTwiceRestoresTheFramebuffer := by
  obtain ⟨-, hdraw⟩ := drawFlipsTheSpriteAndReportsCollision
  refine fun s x y n hn hin => (hdraw s x y n hn hin).imp ?_
  rintro t ⟨hpixel, -, -, -, -, hframe⟩ t' hfb hram hi hx hy
  have hram' : Part.same .ram s t' := Part.same_trans (hframe .ram (by decide)) hram
  have hi' : t'.i = s.i := hi.trans (hframe .index (by decide))
  refine (hdraw t' x y n hn (by rwa [hi'])).imp ?_
  rintro u ⟨hpixel', -, hflag, -⟩
  simp only [hx, hy, hfb, spriteCovers_congr hram' hi'] at hpixel' hflag
  refine ⟨Framebuffer.ext_pixel fun py px => ?_, ?_⟩
  · rw [Bool.eq_iff_iff, hpixel', hpixel]
    by_cases hcovers : SpriteCovers s (s.reg x).toNat (s.reg y).toNat n py px
    · simp only [hcovers, not_true_eq_false, iff_false, Classical.not_not]
    · simp only [hcovers, not_false_eq_true, iff_true]
  · rintro ⟨py, px, hoff, hon⟩
    have hcovers : SpriteCovers s (s.reg x).toNat (s.reg y).toNat n py px := by
      have hlit := (hpixel py px).1 hon
      simpa only [hoff, Bool.false_eq_true, false_iff, Classical.not_not] using hlit
    exact hflag.2 ⟨py, px, hcovers, hon⟩

end Sys2Proof.Machine
end

section
/-! PROOFS of O28 and O29: the keypad instructions (46_keypad.md). The condition of the two skips read as a statement
about the sixteen keys; then each instruction by whether a key it asks for is pressed. -/

namespace Sys2Proof.Machine

/-! ### The key a byte names -/

section named

variable {s : State} {q : Byte}

theorem State.keyDown_iff_exists_key :
    s.keyDown q = true ↔ ∃ k : Fin 16, k.val = q.toNat ∧ s.keys[k.val] = true := by
  rw [State.keyDown_iff]
  constructor
  · rintro ⟨hlt, hkey⟩
    exact ⟨⟨q.toNat, hlt⟩, rfl, hkey⟩
  · rintro ⟨k, hk, hkey⟩
    have hlt : q.toNat < 16 := hk ▸ k.isLt
    simp only [hk] at hkey
    exact ⟨hlt, hkey⟩

/-- A byte of 16 or more is the number of no key, so it is never down (92_eei_decisions.md D10). -/
theorem State.keyDown_eq_false_iff :
    s.keyDown q = false ↔ ∀ k : Fin 16, k.val = q.toNat → s.keys[k.val] = false := by
  rw [← Bool.not_eq_true, State.keyDown_iff_exists_key]
  simp only [not_exists, not_and, Bool.not_eq_true]

end named

/-- Settles O28: the two are one skip, on the bit of the key `v[x]` names or on its negation, and the two hypotheses
say what that bit is. -/
theorem keypadSkips : Obligations.KeypadSkips := by
  refine ⟨encodedAs_skipIfKeyDown, encodedAs_skipIfKeyUp, fun s x => ?_⟩
  have hskipDown := completes_skipIf (exec_skipIfKeyDown x s)
  have hskipUp := completes_skipIf (exec_skipIfKeyUp x s)
  constructor
  · intro hpressed
    rw [State.keyDown_iff_exists_key.2 hpressed] at hskipDown hskipUp
    exact ⟨hskipDown, hskipUp⟩
  · intro hnotPressed
    rw [State.keyDown_eq_false_iff.2 hnotPressed] at hskipDown hskipUp
    exact ⟨hskipDown, hskipUp⟩

/-- Settles O29: WaitKey by its scan of the keys; with a lowest key it is one register write, of a number that fits a
byte. -/
theorem waitKeyRepeatsUntilAKey : Obligations.WaitKeyRepeatsUntilAKey := by
  refine ⟨encodedAs_waitKey, fun s x => ⟨fun hnone => ?_, fun k hkey hlower => ?_⟩⟩
  · exact exec_waitKey_none x s (s.lowestPressed_eq_none_iff.2 hnone)
  · have hlowest : s.lowestPressed = some k.val := (s.lowestPressed_eq_some_iff k.val).2 ⟨k.isLt, hkey, hlower⟩
    have hfits : k.val < 2 ^ 8 := Nat.lt_trans k.isLt (by decide)
    refine (completes_setReg (exec_waitKey_some x s hlowest)).imp fun t ⟨hx, hframe⟩ => ⟨?_, hframe⟩
    rw [hx, BitVec.toNat_ofNat, Nat.mod_eq_of_lt hfits]

end Sys2Proof.Machine
end

section
/-! PROOFS of O32: WriteDelay and WriteSound (47_timers.md). Each is one write of its timer. -/

namespace Sys2Proof.Machine

/-- Writing `delay_timer` changes no other part (10_state.md R16). -/
theorem State.onlyChanges_setDelayTimer (s : State) (b : Byte) : OnlyChanges [.delayTimer] s (s.setDelayTimer b) := by
  intro p hp
  cases p with
  | delayTimer => exact absurd List.mem_cons_self hp
  | _ => simp [Part.same]

/-- Writing `sound_timer` changes no other part (10_state.md R16). -/
theorem State.onlyChanges_setSoundTimer (s : State) (b : Byte) : OnlyChanges [.soundTimer] s (s.setSoundTimer b) := by
  intro p hp
  cases p with
  | soundTimer => exact absurd List.mem_cons_self hp
  | _ => simp [Part.same]

/-- Settles O32: each of the two is one timer write, and its frame composes with the advance of `pc`. -/
theorem timerWrites : Obligations.TimerWrites :=
  ⟨encodedAs_writeDelay, encodedAs_writeSound, fun s x =>
    ⟨⟨_, exec_writeDelay x s, rfl, rfl, (s.onlyChanges_setDelayTimer _).trans (State.onlyChanges_advance _ _)⟩,
     ⟨_, exec_writeSound x s, rfl, rfl, (s.onlyChanges_setSoundTimer _).trans (State.onlyChanges_advance _ _)⟩⟩⟩

end Sys2Proof.Machine
end

section
/-! PROOFS of O38 to O42: StoreBCD, StoreRegs, LoadRegs (48_memory_block.md). A stored block is read back byte by byte
and changes nothing outside itself; each instruction is then one block access, done when the whole block is in RAM and
a fault otherwise. -/

namespace Sys2Proof.Machine

/-! ### A stored block -/

/-- Byte `k` of a stored block reads back at `a + k` (20_memory.md R44). -/
theorem State.byteAt_storeBytes_inside (s : State) (a : Nat) {bs : List Byte} {k : Nat} (h : k < bs.length) :
    (s.storeBytes a bs).byteAt (a + k) = bs[k] := by
  rw [State.byteAt_storeBytes, if_pos (by omega), Nat.add_sub_cancel_left, List.getD_eq_getElem?_getD,
    List.getElem?_eq_getElem h, Option.getD_some]

/-- Storing a block changes RAM only (20_memory.md R46). -/
theorem State.onlyChanges_storeBytes (s : State) (a : Nat) (bs : List Byte) :
    OnlyChanges [.ram] s (s.storeBytes a bs) := by
  intro p hp
  cases p with
  | ram => exact absurd List.mem_cons_self hp
  | _ => simp [Part.same]

/-- Writing `v[0]` upward changes the registers only (10_state.md R11). -/
theorem State.onlyChanges_setRegsFrom (s : State) (bs : List Byte) : OnlyChanges [.regs] s (s.setRegsFrom bs) := by
  intro p hp
  cases p with
  | regs => exact absurd List.mem_cons_self hp
  | _ => simp [Part.same]

/-! ### StoreBCD -/

/-- The three bytes StoreBCD stores are the digits themselves, each small enough for a byte, and make the number up
again (48_memory_block.md R180). -/
theorem State.byteAt_storeBytes_bcdDigits (s : State) (a : Nat) (b : Byte) :
    ((s.storeBytes a (bcdDigits b)).byteAt a).toNat = b.toNat / 100 ∧
    ((s.storeBytes a (bcdDigits b)).byteAt (a + 1)).toNat = b.toNat / 10 % 10 ∧
    ((s.storeBytes a (bcdDigits b)).byteAt (a + 2)).toNat = b.toNat % 10 ∧
    100 * ((s.storeBytes a (bcdDigits b)).byteAt a).toNat + 10 * ((s.storeBytes a (bcdDigits b)).byteAt (a + 1)).toNat
      + ((s.storeBytes a (bcdDigits b)).byteAt (a + 2)).toNat = b.toNat := by
  have hb := b.isLt
  have hbyte : ∀ k (hk : k < 3), (s.storeBytes a (bcdDigits b)).byteAt (a + k) = (bcdDigits b)[k] := fun _ hk =>
    s.byteAt_storeBytes_inside a hk
  have hhundreds : (s.storeBytes a (bcdDigits b)).byteAt a = BitVec.ofNat 8 (b.toNat / 100) := hbyte 0 (by decide)
  have htens : (s.storeBytes a (bcdDigits b)).byteAt (a + 1) = BitVec.ofNat 8 (b.toNat / 10 % 10) := hbyte 1 (by decide)
  have hones : (s.storeBytes a (bcdDigits b)).byteAt (a + 2) = BitVec.ofNat 8 (b.toNat % 10) := hbyte 2 (by decide)
  rw [hhundreds, htens, hones]
  simp only [BitVec.toNat_ofNat]
  omega

/-- Settles O38: StoreBCD is one block write, of the three digits. -/
theorem storeBCDWritesTheDigits : Obligations.StoreBCDWritesTheDigits := by
  refine ⟨encodedAs_storeBCD, fun s x => ⟨fun hin => ?_, fun hout => accessRam_of_outside ⟨by decide, hout⟩ _⟩⟩
  obtain ⟨hhundreds, htens, hones, hnumber⟩ := s.byteAt_storeBytes_bcdDigits s.base (s.reg x)
  exact ⟨_, accessRam_of_inside (.inr hin) _, hhundreds, htens, hones, hnumber, s.ramKeptOutside_storeBytes rfl, rfl,
    (s.onlyChanges_storeBytes _ _).trans (State.onlyChanges_advance _ _)⟩

/-! ### StoreRegs and LoadRegs -/

/-- Settles O39: StoreRegs is one block write, read back register by register. -/
theorem storeRegsWritesTheRegisters : Obligations.StoreRegsWritesTheRegisters :=
  ⟨encodedAs_storeRegs, fun s x hin =>
    ⟨_, exec_storeRegs_next hin, fun _ hk => s.byteAt_storeBytes_regsUpTo s.base hk,
     s.ramKeptOutside_storeBytes (s.length_regsUpTo x), rfl,
     (s.onlyChanges_storeBytes _ _).trans (State.onlyChanges_advance _ _)⟩⟩

/-- A register after a block of `n` bytes was read into the registers: its byte, or what it held
(48_memory_block.md R182). -/
theorem State.reg_setRegsFrom_bytesAt (s : State) (a n : Nat) (k : Reg) :
    (s.setRegsFrom (s.bytesAt a n)).reg k = if k.val < n then s.byteAt (a + k.val) else s.reg k := by
  rw [State.reg_setRegsFrom, State.getD_bytesAt]

/-- Settles O40: LoadRegs is one write of the registers, of the block that RAM holds at `i`. -/
theorem loadRegsReadsTheRegisters : Obligations.LoadRegsReadsTheRegisters := by
  refine ⟨encodedAs_loadRegs, fun s x hin => ⟨_, accessRam_of_inside (.inr hin) _, fun k => ?_, rfl,
    (s.onlyChanges_setRegsFrom _).trans (State.onlyChanges_advance _ _)⟩⟩
  rw [State.advance_reg, State.reg_setRegsFrom_bytesAt]
  simp only [Nat.lt_succ_iff, State.base]

/-- Settles O41: an address outside among those touched means that the block ends outside, which is what the check
finds. -/
theorem blockAccessFaultsAtTheLowestAddress : Obligations.BlockAccessFaultsAtTheLowestAddress := by
  refine fun s x => ⟨fun ⟨k, hk, hout⟩ => ?_, fun ⟨k, hk, hout⟩ => ?_⟩
  · exact accessRam_of_outside ⟨by decide, show 4096 < s.i.toNat + 3 by omega⟩ _
  · have hend : 0 < x.val + 1 ∧ 4096 < s.i.toNat + (x.val + 1) := by omega
    exact ⟨accessRam_of_outside hend _, accessRam_of_outside hend _⟩

/-- Settles O42: the second instruction reads the block that the first one wrote, whatever the registers hold. -/
theorem loadRegsRestoresWhatStoreRegsSaved : Obligations.LoadRegsRestoresWhatStoreRegsSaved := by
  obtain ⟨-, hstore⟩ := storeRegsWritesTheRegisters
  obtain ⟨-, hload⟩ := loadRegsReadsTheRegisters
  intro s x hin
  refine (hstore s x hin).imp ?_
  rintro t ⟨hbytes, -, -, -⟩ t' hram hi
  refine (hload t' x (by rwa [hi])).imp ?_
  rintro u ⟨hregs, -, -⟩ k
  rw [hregs, hi]
  by_cases hk : k.val ≤ x.val
  · rw [if_pos hk, if_pos hk]
    exact (hram _).trans (hbytes k hk)
  · rw [if_neg hk, if_neg hk]

end Sys2Proof.Machine
end

section
/-! PROOFS of O14 and O15: the faults (60_exceptions.md R200 to R206). One `↔` for each operation that can fault says
when it does; so whether a `Step` faults, and how, depends on `pc`, `i`, `sp` and RAM only, and every host operation but
Load and Reset leaves those as they are. -/

namespace Sys2Proof.Machine

/-! ### When an instruction faults -/

/-- An access that would complete faults exactly when its last address is outside RAM (60_exceptions.md R204). -/
theorem accessRam_next_eq_fault_iff (a n : Nat) (t : State) (f : Fault) :
    accessRam a n (.next t) = .fault f ↔ 0 < n ∧ 4096 < a + n ∧ f = .memoryFault (max a 4096) := by
  rcases accessRam_cases a n (.next t) with ⟨hin, heq⟩ | ⟨hout, heq⟩
  · rw [heq]
    exact ⟨nofun, fun ⟨hpos, hend, _⟩ => absurd hin (by omega)⟩
  · simp [heq, hout, eq_comm]

/-- Call faults exactly with 16 return addresses held (60_exceptions.md R202). -/
theorem exec_call_eq_fault_iff (addr : Nat) (s : State) (f : Fault) :
    exec (.call addr) s = .fault f ↔ s.sp.val = 16 ∧ f = .stackOverflow := by
  by_cases h : s.sp.val < 16
  · simp [exec_call_next addr s h, Nat.ne_of_lt h]
  · have hfull : s.sp.val = 16 := by omega
    simp [exec_call_fault addr s hfull, hfull, eq_comm]

/-- Return faults exactly with no return address held (60_exceptions.md R202). -/
theorem exec_ret_eq_fault_iff (s : State) (f : Fault) :
    exec .ret s = .fault f ↔ s.sp.val = 0 ∧ f = .stackUnderflow := by
  by_cases h : 0 < s.sp.val
  · simp [exec_ret_next s h, Nat.ne_of_gt h]
  · have hempty : s.sp.val = 0 := by omega
    simp [exec_ret_fault s hempty, hempty, eq_comm]

/-- Settles O14, by the instruction: those that can fault by their own conditions, the others because they complete. -/
theorem executeFaultsAreExactly : Obligations.ExecuteFaultsAreExactly := by
  intro i s f
  cases i with
  | call addr => simp [exec_call_eq_fault_iff]
  | ret => simp [exec_ret_eq_fault_iff]
  | draw x y n =>
    rw [exec_draw, accessRam_next_eq_fault_iff]
    constructor
    · exact fun h => .inr (.inr (.inl ⟨x, y, n, rfl, h⟩))
    · rintro (⟨_, ⟨⟩, _⟩ | ⟨⟨⟩, _⟩ | ⟨_, _, _, ⟨⟩, h⟩ | ⟨_, ⟨⟩, _⟩ | ⟨_, hi, _⟩)
      · exact h
      · rcases hi with hi | hi <;> cases hi
  | storeBCD x => simp [accessRam_next_eq_fault_iff, State.base]
  | storeRegs x | loadRegs x =>
    have hend : 4096 < s.i.toNat + (x.val + 1) ↔ 4096 ≤ s.i.toNat + x.val := Nat.lt_succ_iff
    simp [accessRam_next_eq_fault_iff, State.base, hend]
  | waitKey x =>
    rcases exec_waitKey_cases x s with h | ⟨_, _, h⟩
    · simp [h]
    · simp [h]
  | _ => simp

/-! ### What a faulting Step depends on -/

/-- The parts of the state that decide whether a `Step` faults, and with what: `pc`, `i`, `sp` and RAM. -/
def SameFaultInputs (s t : State) : Prop :=
  t.pc = s.pc ∧ t.i = s.i ∧ t.sp = s.sp ∧ ∀ a : Nat, t.byteAt a = s.byteAt a

/-- The execute stage faults alike in states that agree on `i` and `sp`. -/
theorem exec_fault_of_sameFaultInputs {i : Instr} {s t : State} {f : Fault} (hst : SameFaultInputs s t)
    (h : exec i s = .fault f) : exec i t = .fault f := by
  obtain ⟨-, hi, hsp, -⟩ := hst
  rw [executeFaultsAreExactly] at h ⊢
  rwa [hi, hsp]

/-- The fetch and the decoder answer alike too, in the order of 60_exceptions.md R207. -/
theorem cycle_fault_of_sameFaultInputs {s t : State} {f : Fault} (hst : SameFaultInputs s t)
    (h : cycle s = .fault f) : cycle t = .fault f := by
  have ⟨hpc, _, _, hram⟩ := hst
  have hfetch : t.fetch = s.fetch := by simp only [State.fetch_eq, hpc, hram]
  unfold cycle at h ⊢
  rw [hfetch]
  split at h
  · exact h
  · split at h
    · exact h
    · exact exec_fault_of_sameFaultInputs hst h

/-- Once a `Step` faults, no operation but Load and Reset makes it go otherwise (60_exceptions.md R206). -/
theorem perform_keeps_step_fault {op : HostOp} {s t : State} {f : Fault} (hs : perform .step s = .fault f)
    (h : perform op s = .next t) (hreset : op ≠ .reset) (hload : ∀ image, op ≠ .load image) :
    perform .step t = .fault f := by
  cases op with
  | step => cases hs.symm.trans h
  | reset => exact absurd rfl hreset
  | load image => exact absurd rfl (hload image)
  | tick | setKey _ _ | readFramebuffer | readTimers =>
    cases h
    exact cycle_fault_of_sameFaultInputs (s := s) ⟨rfl, rfl, rfl, fun _ => rfl⟩ hs

/-- And each of those operations, but the `Step` itself, completes (60_exceptions.md R220, R223, R224, R225). -/
theorem performs_keeping_step_fault {op : HostOp} {s : State} {f : Fault} (hs : perform .step s = .fault f)
    (hstep : op ≠ .step) (hreset : op ≠ .reset) (hload : ∀ image, op ≠ .load image) :
    Performs op s fun t => perform .step t = .fault f := by
  have hnext : ∃ t, perform op s = .next t := by
    cases op with
    | step => exact absurd rfl hstep
    | load image => exact absurd rfl (hload image)
    | tick | setKey _ _ | reset | readFramebuffer | readTimers => exact ⟨_, rfl⟩
  obtain ⟨t, ht⟩ := hnext
  exact ⟨t, ht, perform_keeps_step_fault hs ht hreset hload⟩

/-! ### A host that records faults and goes on -/

/-- The operations are issued in order. -/
theorem RunRecord.drive_cons (r : RunRecord) (op : HostOp) (ops : List HostOp) :
    r.drive (op :: ops) = (r.after op).drive ops := rfl

/-- One operation adds to the record at most. -/
theorem RunRecord.faults_suffix_after (r : RunRecord) (op : HostOp) : r.faults <:+ (r.after op).faults := by
  unfold RunRecord.after
  split
  · exact List.suffix_rfl
  · exact List.suffix_cons _ _
  · exact List.suffix_rfl

/-- So no operations clear a recorded fault (60_exceptions.md R206). -/
theorem RunRecord.faults_suffix_drive (ops : List HostOp) (r : RunRecord) : r.faults <:+ (r.drive ops).faults := by
  induction ops generalizing r with
  | nil => exact List.suffix_rfl
  | cons op ops ih => exact (r.faults_suffix_after op).trans (ih (r.after op))

section record

variable {r : RunRecord} {f : Fault}

/-- A `Step` that faults is recorded and leaves the state (60_exceptions.md R205). -/
theorem RunRecord.after_step_of_fault (h : perform .step r.state = .fault f) :
    r.after .step = { r with faults := f :: r.faults } := by
  simp [RunRecord.after, h]

/-- An operation that completes is not recorded. -/
theorem RunRecord.after_of_next {op : HostOp} {t : State} (h : perform op r.state = .next t) :
    r.after op = { r with state := t } := by
  simp [RunRecord.after, h]

/-- Over operations without Load and Reset each `Step` records the fault once more, and the `Step` still faults. -/
theorem RunRecord.drive_of_step_fault {ops : List HostOp} (h : perform .step r.state = .fault f)
    (hreset : .reset ∉ ops) (hload : ∀ image : List Byte, .load image ∉ ops) :
    perform .step (r.drive ops).state = .fault f ∧
      (r.drive ops).faults = List.replicate (ops.count .step) f ++ r.faults := by
  induction ops generalizing r with
  | nil => exact ⟨h, rfl⟩
  | cons op ops ih =>
    have hreset' : .reset ∉ ops := List.not_mem_of_not_mem_cons hreset
    have hload' : ∀ image : List Byte, .load image ∉ ops := fun image => List.not_mem_of_not_mem_cons (hload image)
    rw [RunRecord.drive_cons]
    by_cases hop : op = .step
    · subst hop
      obtain ⟨hfault, hfaults⟩ := ih (r := { r with faults := f :: r.faults }) h hreset' hload'
      rw [RunRecord.after_step_of_fault h, List.count_cons_self, List.replicate_succ', List.append_assoc]
      exact ⟨hfault, hfaults⟩
    · obtain ⟨t, ht, hstep⟩ := performs_keeping_step_fault h hop (List.ne_of_not_mem_cons hreset).symm
        fun image => (List.ne_of_not_mem_cons (hload image)).symm
      obtain ⟨hfault, hfaults⟩ := ih (r := { r with state := t }) hstep hreset' hload'
      rw [RunRecord.after_of_next ht, List.count_cons_of_ne hop]
      exact ⟨hfault, hfaults⟩

end record

/-- Settles O15: each operation but Load and Reset by `perform_keeps_step_fault`, and a host's record by induction on
its operations. -/
theorem faultedStepFaultsUntilLoadOrReset : Obligations.FaultedStepFaultsUntilLoadOrReset := by
  refine ⟨fun s f hs => ⟨performs_keeping_step_fault hs nofun nofun nofun,
    fun _ _ => performs_keeping_step_fault hs nofun nofun nofun, performs_keeping_step_fault hs nofun nofun nofun,
    performs_keeping_step_fault hs nofun nofun nofun, fun op t hop hne => ?_⟩,
    fun ops r f => RunRecord.drive_of_step_fault, fun ops r => ?_⟩
  · refine Classical.byContradiction fun hother => ?_
    obtain ⟨hreset, hload⟩ := not_or.1 hother
    exact hne (perform_keeps_step_fault hs hop hreset (not_exists.1 hload))
  · obtain ⟨new, hnew⟩ := RunRecord.faults_suffix_drive ops r
    exact ⟨new, hnew.symm⟩

end Sys2Proof.Machine
end

section
/-! PROOFS of O34: the random port is one more part of the state that no instruction's control reads
(60_exceptions.md R226). -/

namespace Sys2Proof.Machine

theorem unseen_replacePort (q : List Byte) (d : Nat) : Unseen (fun s => { s with rnd := q, draws := d }) := by
  constructor <;> intros <;> rfl

/-- Settles O34: an arm that branches does so on other fields, and every other arm but Random passes the port
through. -/
theorem onlyRandomUsesTheRandomPort : Obligations.OnlyRandomUsesTheRandomPort := by
  intro i s q d hi
  have hg := unseen_replacePort q d
  cases i with
  | random _ _ => exact absurd rfl hi
  | call addr => exact hg.exec_call s addr
  | ret => exact hg.exec_ret s
  | waitKey x => exact hg.exec_waitKey s x
  | skipEqImm _ _ | skipNeqImm _ _ | skipEqReg _ _ | skipNeqReg _ _ | skipIfKeyDown _ | skipIfKeyUp _ =>
    exact congrArg Host.Outcome.next (hg.skipIf s _)
  | draw _ _ _ | storeBCD _ | storeRegs _ | loadRegs _ =>
    simp only [exec_draw, exec_storeBCD, exec_storeRegs, exec_loadRegs, mapNext_accessRam]
    rfl
  | _ => rfl

end Sys2Proof.Machine
end

section
/-! PROOFS of O11: an unknown word is the fault of the cycle (60_exceptions.md R201). -/

namespace Sys2Proof.Machine

/-- Settles O11: the fetch succeeds, and the decoder hands back the word it was given. -/
theorem unknownOpcodeCarriesTheFetchedWord : Obligations.UnknownOpcodeCarriesTheFetchedWord := by
  intro s raw hs hpc hd
  refine ⟨?_, raw_eq_of_decode hd⟩
  rw [step_eq_cycle hs]
  simp [cycle, State.fetch_eq, hpc, hd, raise]

end Sys2Proof.Machine
end

section
/-! PROOFS of O54, O55, O58: Tick, SetKey and the two observations (60_exceptions.md R220, R223, R224, R225). -/

namespace Sys2Proof.Machine

/-! ### Tick -/

/-- One countdown unit is the natural numbers' subtraction, which stops at 0 (60_exceptions.md R220). -/
theorem countDown_toNat (t : Byte) : (countDown t).toNat = t.toNat - 1 := by
  unfold countDown
  split
  · next h => rw [h]; rfl
  · next h => bv_omega

/-- Tick changes the two timers only (60_exceptions.md R220). -/
theorem onlyChanges_hostTick (s : State) : OnlyChanges [.delayTimer, .soundTimer] s (hostTick s) := by
  intro p hp
  cases p with
  | delayTimer | soundTimer => exact absurd (by decide) hp
  | regs | ram => exact fun _ => rfl
  | stack | randomPort => exact ⟨rfl, rfl⟩
  | _ => rfl

/-- Any number of ticks, by induction on it. -/
theorem timers_repeat_hostTick (n : Nat) (s : State) :
    (Nat.repeat hostTick n s).delayTimer.toNat = s.delayTimer.toNat - n ∧
    (Nat.repeat hostTick n s).soundTimer.toNat = s.soundTimer.toNat - n := by
  induction n with
  | zero => exact ⟨rfl, rfl⟩
  | succ n ih =>
    obtain ⟨hdelay, hsound⟩ := ih
    have hdelay' := countDown_toNat (Nat.repeat hostTick n s).delayTimer
    have hsound' := countDown_toNat (Nat.repeat hostTick n s).soundTimer
    rw [hdelay] at hdelay'
    rw [hsound] at hsound'
    exact ⟨hdelay', hsound'⟩

/-- Settles O54: one tick by the countdown unit, n ticks by induction. -/
theorem tickCountsBothTimersDown : Obligations.TickCountsBothTimersDown :=
  ⟨fun s => ⟨_, rfl, countDown_toNat _, countDown_toNat _, rfl, onlyChanges_hostTick s⟩, timers_repeat_hostTick⟩

/-! ### SetKey -/

/-- SetKey changes the keys only (60_exceptions.md R223). -/
theorem onlyChanges_hostSetKey (index : Nat) (pressed : Bool) (s : State) :
    OnlyChanges [.keys] s (hostSetKey index pressed s) := by
  intro p hp
  cases p with
  | keys => exact absurd List.mem_cons_self hp
  | regs | ram => exact fun _ => rfl
  | stack | randomPort => exact ⟨rfl, rfl⟩
  | _ => rfl

/-- The named key takes the value; an index of 16 or more names none of the sixteen (60_exceptions.md R223). -/
theorem keys_hostSetKey (index : Nat) (pressed : Bool) (s : State) (k : Fin 16) :
    (hostSetKey index pressed s).keys[k.val] = if k.val = index then pressed else s.keys[k.val] := by
  simp only [hostSetKey, Vector.getElem_setIfInBounds, eq_comm]

/-- No instruction writes a key (10_state.md R17), and neither does any other operation than SetKey and Reset. -/
theorem perform_keeps_keys {op : HostOp} {s t : State} (hset : ∀ index pressed, op ≠ .setKey index pressed)
    (hreset : op ≠ .reset) (h : perform op s = .next t) : t.keys = s.keys := by
  cases op with
  | step =>
    obtain ⟨i, hi⟩ := exists_exec_of_cycle_eq_next h
    obtain ⟨-, -, -, -, -, -, hkeys, -⟩ := exec_keeps_unnamed_parts hi
    exact hkeys
  | setKey index pressed => exact absurd rfl (hset index pressed)
  | reset => exact absurd rfl hreset
  | load image => obtain ⟨_, rfl⟩ := (hostLoad_eq_next_iff image s t).1 h; rfl
  | tick | readFramebuffer | readTimers => cases h; rfl

/-- Settles O55: SetKey is one write within the bounds of the keys. -/
theorem setKeyWritesOneKey : Obligations.SetKeyWritesOneKey :=
  ⟨fun s index pressed =>
    ⟨_, rfl, keys_hostSetKey index pressed s, rfl, onlyChanges_hostSetKey index pressed s⟩,
   fun _ _ _ => perform_keeps_keys⟩

/-! ### The observations -/

/-- The flat view is the framebuffer's rows one after another (10_state.md R18). -/
theorem framebufferFlat_eq_flatten (s : State) : framebufferFlat s = s.fb.flatten.toList := by
  simp [framebufferFlat, Vector.flatten, List.flatMap, Function.comp_def, Vector.toList]

/-- Settles O58: an observation performs nothing, and element `y * 64 + x` of rows of 64 is in row `y`, column `x`. -/
theorem observationsChangeNothing : Obligations.ObservationsChangeNothing := by
  refine fun s => ⟨rfl, rfl, rfl, rfl, ?_, fun y x => ?_⟩
  · rw [framebufferFlat_eq_flatten, Vector.length_toList]
  · have hrow : (y.val * 64 + x.val) / 64 = y.val := by omega
    have hcolumn : (y.val * 64 + x.val) % 64 = x.val := by omega
    have hlt : y.val * 64 + x.val < 32 * 64 := by omega
    rw [framebufferFlat_eq_flatten, Vector.getElem?_toList, Vector.getElem?_eq_getElem hlt, Vector.getElem_flatten]
    simp only [hrow, hcolumn, Framebuffer.pixel]

end Sys2Proof.Machine
end

section
/-! PROOFS of O1, O2, O52, O56, O57: reset and the loading of an image (70_reset_and_hazards.md). -/

namespace Sys2Proof.Machine

/-! ### Power-on -/

/-- The reset state is the power-on state of its parameters: nothing is listed in RAM, so each address reads as its
reset contents (70_reset_and_hazards.md R242). -/
theorem powerOn_resetWith (p : Parameters) : PowerOn (State.resetWith p) := by
  refine ⟨rfl, fun k => ?_, rfl, rfl, fun k => ?_, fun k => ?_, rfl, rfl, Framebuffer.pixel_blank, fun k => ?_,
    fun a hlow _ => Memory.unlisted_of_ge hlow⟩
  · exact Vector.getElem_replicate k.isLt
  · exact Vector.getElem_replicate k.isLt
  · exact Vector.getElem_replicate k.isLt
  · exact Memory.unlisted_of_lt k.isLt

/-- Settles O1. -/
theorem resetIsThePowerOnState : Obligations.ResetIsThePowerOnState :=
  ⟨fun p => ⟨powerOn_resetWith p, rfl⟩, rfl, rfl⟩

/-- Settles O2: what Reset keeps of the environment is no piece of the CORE, so power-on is that of the reset state. -/
theorem hostResetRestoresPowerOn : Obligations.HostResetRestoresPowerOn := fun s =>
  ⟨hostReset s, rfl, powerOn_resetWith s.params, ⟨rfl, rfl⟩, rfl⟩

/-- Settles O52, whatever the parameters are. -/
theorem resetMeetsTheInvariant : Obligations.ResetMeetsTheInvariant :=
  ⟨inv_resetWith crust8Parameters, inv_resetWith⟩

/-! ### Load -/

/-- A byte outside a stored block is as before (20_memory.md R44). -/
theorem State.byteAt_storeBytes_outside (s : State) {a b : Nat} {bs : List Byte} (h : b < a ∨ a + bs.length ≤ b) :
    (s.storeBytes a bs).byteAt b = s.byteAt b := by
  rw [State.byteAt_storeBytes, if_neg (by omega)]

/-- Load of an image that fits is one block write (70_reset_and_hazards.md R245). -/
theorem perform_load_of_fits {image : List Byte} (h : image.length ≤ Config.maxImage) (s : State) :
    perform (.load image) s = .next (s.storeBytes Config.programOrigin image) :=
  (hostLoad_eq_next_iff image s _).2 ⟨h, rfl⟩

/-- Settles O56: the block is the image, and only RAM changes. -/
theorem loadInstallsTheImage : Obligations.LoadInstallsTheImage := by
  refine fun s image => ⟨fun hfits => ⟨_, perform_load_of_fits hfits s, fun k hk => ?_,
    fun _ => s.byteAt_storeBytes_outside, rfl, s.onlyChanges_storeBytes _ _⟩, fun hlong => if_pos hlong⟩
  rw [s.byteAt_storeBytes_inside 0x200 hk, List.getElem?_eq_getElem hk]

/-! ### The first step -/

/-- Bytes that decode to an instruction begin with the two bytes of its word (30_encoding.md R73). -/
theorem exists_word_of_decodeBytes {image rest : List Byte} {i : Instr} (h : decodeBytes image = .instr i rest) :
    ∃ hi lo tail, image = hi :: lo :: tail ∧ decode (wordOfBytes hi lo) = .instr i := by
  unfold decodeBytes at h
  split at h
  · next hi lo tail =>
    split at h
    · next hd => cases h; exact ⟨hi, lo, _, rfl, hd⟩
    · cases h
  · cases h

/-- Settles O57: after Reset `pc` is where Load puts the image, so the first step fetches its first two bytes. -/
theorem executionBeginsWithTheImage : Obligations.ExecutionBeginsWithTheImage := by
  intro s image rest i hs hfits hd
  obtain ⟨hi, lo, tail, rfl, hword⟩ := exists_word_of_decodeBytes hd
  refine ⟨hostReset s, rfl, _, perform_load_of_fits hfits _, rfl, ?_⟩
  have hhi : ((hostReset s).storeBytes 0x200 (hi :: lo :: tail)).byteAt 0x200 = hi :=
    (hostReset s).byteAt_storeBytes_inside 0x200 (k := 0) (by simp)
  have hlo : ((hostReset s).storeBytes 0x200 (hi :: lo :: tail)).byteAt 0x201 = lo :=
    (hostReset s).byteAt_storeBytes_inside 0x200 (k := 1) (by simp)
  have hschedule : ((hostReset s).storeBytes 0x200 (hi :: lo :: tail)).schedule = [] := hs
  rw [step_eq_cycle hschedule]
  refine cycle_eq_exec (show 0x200 ≤ 4094 by decide) ?_
  show decode (wordOfBytes (State.byteAt _ 0x200) (State.byteAt _ 0x201)) = _
  rw [hhi, hlo, hword]

end Sys2Proof.Machine
end

section
/-! PROOFS of O49: the two fixed points of a step (70_reset_and_hazards.md R255). -/

namespace Sys2Proof.Machine

/-- A cycle whose fetched word decodes to an instruction is that instruction. -/
theorem cycle_of_fetch_word {s : State} {w : Word} {i : Instr} (hf : s.fetch = .word w) (hd : decode w = .instr i) :
    cycle s = exec i s := by
  simp [cycle, hf, hd]

/-- At a Jump to its own address a cycle writes the old `pc` back (40_control_flow.md R101). -/
theorem cycle_of_atSelfJump {s : State} (h : atSelfJump s = true) : cycle s = .next s := by
  obtain ⟨-, -, hjump⟩ := jumpSetsPcAndNothingElse
  unfold atSelfJump at h
  split at h
  · next w hf => exact (cycle_of_fetch_word hf (of_decide_eq_true h)).trans (hjump s)
  · cases h

/-- At a WaitKey with no key pressed a cycle leaves the machine where it is (46_keypad.md R167). -/
theorem cycle_of_atIdleWaitKey {s : State} (h : atIdleWaitKey s = true) : cycle s = .next s := by
  unfold atIdleWaitKey at h
  split at h
  · next w hf =>
    split at h
    · next x hd => exact (cycle_of_fetch_word hf hd).trans (exec_waitKey_none x s (Option.isNone_iff_eq_none.1 h))
    · cases h
  · cases h

/-- A state that a step leaves as it is, any number of steps does. -/
theorem run_of_step_eq_self {s : State} (h : step s = .next s) (n : Nat) : Host.Core.run core n s = .next s := by
  induction n with
  | zero => rfl
  | succ n ih =>
    have hcore : core.step s = .next s := h
    simp only [Host.Core.run, hcore, ih]

/-- Settles O49: with nothing scheduled a step is a cycle, and at both points a cycle changes nothing. -/
theorem fixedPointsOfStep : Obligations.FixedPointsOfStep := by
  intro s hs hpoint
  refine run_of_step_eq_self ((step_eq_cycle hs).trans ?_)
  rcases hpoint with hjump | hwait
  · exact cycle_of_atSelfJump hjump
  · exact cycle_of_atIdleWaitKey hwait

end Sys2Proof.Machine
end
